-- ==== Sys2Proof/Word.lean ====
section
/-!
DEFINITION. The widths of base32_codec (R7, R8): every value of the block is an unsigned bit field
of one of these widths, bit 0 the least significant.
-/

namespace Sys2Proof

/-- A command word, `CMD_W` = 20 bits (R7, R60). -/
abbrev Word := BitVec 20

/-- A byte: the encoder's input, the decoder's output, and an encoder output character code
(`IN_BYTE_W` = `DEC_OUT_W` = `ENC_CHAR_W` = 8, R7). -/
abbrev Byte := BitVec 8

/-- A symbol value, `SYM_W` = 5 bits (R7): the index of a character in the alphabet. -/
abbrev Sym := BitVec 5

/-- A decoder input character code, `CHAR_W` = 16 bits (R7), never truncated (R69). -/
abbrev CharCode := BitVec 16

/-- A unit's bit buffer, `BUF_W` = 40 bits (R7, R21, R24): one whole group. -/
abbrev Buf := BitVec 40

end Sys2Proof
end

