-- ==== Sys2Proof/Config.lean ====
section
/-!
DEFINITION. What an implementation fixes: the one parameter a result can depend on, `DEC_CAP`
(R7, R53). `LATENCY` (R7, R159) has no place in a model without time (assumption log 8).
-/

namespace Sys2Proof

/-- `DEC_CAP`, the capacity in bytes of the decoder's pending buffer: "a natural number or
unbounded" (R7). The model takes it as an argument: a field of State that no step writes, so that
a statement about every state holds for every capacity (assumption log 1). -/
inductive Capacity where
  /-- The buffer never fills: `Fault(OVERFLOW)` never arises (R135). -/
  | unbounded
  /-- The buffer holds at most `n` bytes. -/
  | bytes (n : Nat)
  deriving DecidableEq, Repr

end Sys2Proof
end

