-- ==== Sys2Proof/Syntax.lean ====
section
/-!
DEFINITION. The four commands of base32_codec (R61 to R65), one constructor per row of
spec/opcode_table.json, and the unit each belongs to.
-/

namespace Sys2Proof

/-- A legal command. The operand types carry the operand ranges of R69, so no term of this type is
out of range. -/
inductive Instr where
  /-- ENC_BYTE D: append one byte to the current encode message (R62, R84). -/
  | encByte (d : Byte)
  /-- ENC_END: close the current encode message (R63, R85). -/
  | encEnd
  /-- DEC_CHAR C: present one character of the current decode message (R64, R110). -/
  | decChar (c : CharCode)
  /-- DEC_END: close the current decode message and deliver its result (R65, R111). -/
  | decEnd
  deriving DecidableEq, Repr

/-- The two units of the block (R1). -/
inductive CodecUnit where
  | enc
  | dec
  deriving DecidableEq, Repr

/-- The unit a command addresses (the column "unit" of R61). -/
def Instr.unit : Instr → CodecUnit
  | .encByte _ => .enc
  | .encEnd    => .enc
  | .decChar _ => .dec
  | .decEnd    => .dec

end Sys2Proof
end

