-- ==== Sys2Proof/WellFormed.lean ====
section
/-!
DEFINITION. Which command words are legal, by the match and mask of R62 to R65 (written apart from
the decoder, which an obligation compares with it), and which instructions are well formed.
-/

namespace Sys2Proof

/-- One row of the opcode table: a word is of the row when its bits under `mask` are `pattern`. -/
structure OpcodeRow where
  mnemonic : String
  pattern  : Word
  mask     : Word
  deriving DecidableEq, Repr

/-- The opcode table (R62, R63, R64, R65; spec/opcode_table.json). -/
def opcodeTable : List OpcodeRow :=
  [ ⟨"ENC_BYTE", 0x10000, 0xFFF00⟩,
    ⟨"ENC_END",  0x20000, 0xFFFFF⟩,
    ⟨"DEC_CHAR", 0x90000, 0xF0000⟩,
    ⟨"DEC_END",  0xA0000, 0xFFFFF⟩ ]

/-- The word is of this row. -/
def OpcodeRow.covers (r : OpcodeRow) (w : Word) : Bool :=
  w &&& r.mask == r.pattern

/-- The word is one of the four legal forms; every other word is illegal (R67, R68). -/
def wordWellFormed (w : Word) : Bool :=
  opcodeTable.any (fun r => r.covers w)

/-- An instruction is well formed when its operand is in the range of R69. The types of `Instr`'s
operands hold exactly these ranges, so the check refuses nothing; what can be ill formed on this
hardware is a WORD (`wordWellFormed`) or an assembler operand (Machine/Assembler.lean). -/
def Instr.wellFormed : Instr → Bool
  | .encByte d => d.toNat ≤ 255
  | .encEnd    => true
  | .decChar c => c.toNat ≤ 65535
  | .decEnd    => true

end Sys2Proof
end

