-- ==== Sys2Proof/Decode.lean ====
section
/-!
DEFINITION. The decoder of command words (R60 to R69), total on all 2^20 words and refusing an
illegal word by name, and after it the encoder written from the same table.
-/

namespace Sys2Proof

/-- `OP`, bits 19..16 of a command word (R60). -/
def opField (w : Word) : BitVec 4 := w.extractLsb' 16 4

/-- `OPERAND`, bits 15..0 of a command word (R60). -/
def operandField (w : Word) : BitVec 16 := w.extractLsb' 0 16

/-- `OPERAND[15:8]`, which an ENC_BYTE word holds at zero (R62). -/
def operandHigh (w : Word) : BitVec 8 := w.extractLsb' 8 8

/-- `OPERAND[7:0]`, ENC_BYTE's datum (R62, R69). -/
def operandLow (w : Word) : BitVec 8 := w.extractLsb' 0 8

/-- Why a word is illegal (the three cases of R67). -/
inductive IllegalWord where
  /-- No command has this operation code. -/
  | opcode (op : BitVec 4)
  /-- An ENC_BYTE word with `OPERAND[15:8] != 0`. -/
  | encByteHigh (hi : BitVec 8)
  /-- An ENC_END word with `OPERAND != 0`. -/
  | encEndOperand (x : BitVec 16)
  /-- A DEC_END word with `OPERAND != 0`. -/
  | decEndOperand (x : BitVec 16)
  deriving DecidableEq, Repr

/-- What a word decodes to. -/
inductive Decoded where
  | legal (i : Instr)
  | illegal (why : IllegalWord)
  deriving DecidableEq, Repr

/-- The command a word carries (R61 to R65), or why it is illegal (R67). -/
def decode (w : Word) : Decoded :=
  if opField w = 0x1 then
    if operandHigh w = 0 then .legal (.encByte (operandLow w))
    else .illegal (.encByteHigh (operandHigh w))
  else if opField w = 0x2 then
    if operandField w = 0 then .legal .encEnd else .illegal (.encEndOperand (operandField w))
  else if opField w = 0x9 then
    .legal (.decChar (operandField w))
  else if opField w = 0xA then
    if operandField w = 0 then .legal .decEnd else .illegal (.decEndOperand (operandField w))
  else .illegal (.opcode (opField w))

/-- The command of a decoded word, if it is legal. -/
def Decoded.instr? : Decoded → Option Instr
  | .legal i   => some i
  | .illegal _ => none

/-- The word of a command: the patterns of R62 to R65, bit 19 first. -/
def encode : Instr → Word
  | .encByte d => 0x1#4 ++ 0x00#8 ++ d
  | .encEnd    => 0x2#4 ++ 0x0000#16
  | .decChar c => 0x9#4 ++ c
  | .decEnd    => 0xA#4 ++ 0x0000#16

/-- The command word whose bits the opcode table numbers as `w`, of which the table gives `nbits`.
The command port is 20 wires wide (R154), so no bit above bit 19 is presented (assumption log 11). -/
def tableWord (nbits w : Nat) : Word := BitVec.ofNat 20 (w % 2 ^ nbits)

/-- The instruction the decoder reads from the word the opcode table numbers as `w`. -/
def decodeTableWord (nbits w : Nat) : Option Instr := (decode (tableWord nbits w)).instr?

end Sys2Proof
end

