-- ==== Sys2Proof/Machine/State.lean ====
section
/-!
DEFINITION. The state of base32_codec (R20 to R31), its reset values (R35), and the reasons a step
of this machine can stop (there is none that the spec gives).
-/

namespace Sys2Proof.Machine

/-- The encoder unit's state (R21 to R23). -/
structure Enc where
  /-- `enc.buf`, 40 bits: the bytes of the current partial group, the first one highest (R21). -/
  buf : Buf
  /-- `enc.cnt`, 3 bits: the number of bytes in `buf`, an integer in 0..4; the values 5, 6 and 7
  never occur (R22; assumption log 9). -/
  cnt : Fin 5
  deriving DecidableEq, Repr

/-- The decoder unit's state (R24 to R28). -/
structure Dec where
  /-- `dec.buf`, 40 bits: the symbol values of the current partial group, the first highest (R24). -/
  buf : Buf
  /-- `dec.cnt`, 3 bits: the number of symbols in `buf`, an integer in 0..7 (R25). -/
  cnt : Fin 8
  /-- `dec.pad`: the current message has contained a `=` (R26). -/
  pad : Bool
  /-- `dec.err`: the current message has been found malformed (R27). -/
  err : Bool
  /-- `dec.pend`: the bytes of the full groups of the current message, in output order (R28). -/
  pend : List Byte
  deriving DecidableEq, Repr

/-- An item of the queue `enc_out` (R31). -/
inductive EncItem where
  /-- `Chr(c)`: one output character code. -/
  | chr (c : Byte)
  /-- `EndMsg`: closes one encoded message. -/
  | endMsg
  deriving DecidableEq, Repr

/-- An item of the queue `dec_out` (R31). -/
inductive DecItem where
  /-- `Byte(b)`: one decoded byte. -/
  | byte (b : Byte)
  /-- `EndValid`: closes a decoded message whose result is the bytes before it. -/
  | endValid
  /-- `EndInvalid`: closes a message whose result is "invalid". -/
  | endInvalid
  deriving DecidableEq, Repr

/-- The kinds of a command fault, each a bit of `fault` (R30, R133). -/
inductive FaultKind where
  /-- Bit 0, `ILLEGAL`: the command word is illegal (R134). -/
  | illegal
  /-- Bit 1, `OVERFLOW`: a full decoder group does not fit in `dec.pend` (R135). -/
  | overflow
  deriving DecidableEq, Repr

/-- The result of one decode: the bytes, or "invalid" (R107, R130). -/
inductive DecodeResult where
  | valid (bytes : List Byte)
  | invalid
  deriving DecidableEq, Repr

/-- One thing the host does at the ports (R154, R156). Reading `fault`, or the head of a queue,
changes nothing and is no event (Machine/Port.lean gives what is read). -/
inductive HostEvent where
  /-- Present one command word, and the block accepts it. -/
  | cmd (w : Word)
  /-- Take the head item of `enc_out`: the handshake on `eo_*`. -/
  | takeEnc
  /-- Take the head item of `dec_out`: the handshake on `do_*`. -/
  | takeDec
  /-- Assert `rst`. -/
  | rst
  deriving DecidableEq, Repr

/-- The state of the block (R20), and beside it two fields of the model's own: the parameter
`decCap` (assumption log 1) and the host's coming actions `input` (assumption log 2). -/
structure State where
  /-- The encoder unit. -/
  enc : Enc
  /-- The decoder unit. -/
  dec : Dec
  /-- `fault`, 2 bits: bit 0 ILLEGAL, bit 1 OVERFLOW; sticky (R30). -/
  fault : BitVec 2
  /-- The queue `enc_out`, its head first (R31). -/
  encOut : List EncItem
  /-- The queue `dec_out`, its head first (R31). -/
  decOut : List DecItem
  /-- The parameter DEC_CAP (R7); no step writes it. -/
  decCap : Capacity
  /-- What the host does from now on, the next action first (R20: "the command stream is input"). -/
  input : List HostEvent
  deriving DecidableEq, Repr

/-- Why a step would stop the machine. NOBODY RAISES ONE: a command fault sets a sticky bit and
"does not stop the block" (R133), a decode error is a queue item (R131), and every command is a
total function of the state (R15). So the type has no constructor (assumption log 6). -/
inductive Fault where
  deriving DecidableEq, Repr

/-- Why a step would refuse an instruction. -/
inductive Refusal where
  /-- An instruction without a meaning in this model. Raised by nobody: all four commands have
  theirs. Safe. -/
  | notModelled (mnemonic : String)
  deriving DecidableEq, Repr

/-- The encoder unit at the start of every message (R35). -/
def Enc.start : Enc := { buf := 0, cnt := 0 }

/-- The decoder unit at the start of every message (R35). -/
def Dec.start : Dec := { buf := 0, cnt := 0, pad := false, err := false, pend := [] }

/-- The block right after reset (R35, R150), built with the capacity `cap`, nothing presented at
its ports. -/
def State.resetWith (cap : Capacity) : State where
  enc    := Enc.start
  dec    := Dec.start
  fault  := 0
  encOut := []
  decOut := []
  decCap := cap
  input  := []

/-- The block right after reset (R35, R150). DESIGN CHOICE (assumption log 1): DEC_CAP is
unbounded, as the spec's own test programs have it "unless stated"; `State.resetWith` is the reset
state of a block of any capacity. -/
def State.reset : State := State.resetWith .unbounded

end Sys2Proof.Machine
end

