-- ==== Sys2Proof/Machine/Operands.lean ====
section
/-!
DEFINITION. How operands and buffers are read: the alphabet ROM (R33, R41), the classes of
characters (R100, R101), the slicing of a buffer into symbols and bytes (R43 to R45), and the two
tail tables (R82, R106).
-/

namespace Sys2Proof.Machine

/-- The contents of the alphabet ROM, index 0 first (the table of R41): the codes of
`ABCDEFGHIJKLMNOPQRSTUVWXYZ234567`. -/
def romTable : Vector Byte 32 :=
  #v[0x41, 0x42, 0x43, 0x44, 0x45, 0x46, 0x47, 0x48,
     0x49, 0x4A, 0x4B, 0x4C, 0x4D, 0x4E, 0x4F, 0x50,
     0x51, 0x52, 0x53, 0x54, 0x55, 0x56, 0x57, 0x58,
     0x59, 0x5A, 0x32, 0x33, 0x34, 0x35, 0x36, 0x37]

/-- `ROM[i]`, defined for every 5-bit index (R42). -/
def rom (i : Sym) : Byte := romTable[i.toNat]'i.isLt

/-- The code of `'='`, 61. PRESUMED by the spec (R11: general knowledge; assumption log 10). -/
def padChar : Byte := 0x3D

/-- The class of a character code (R100). -/
inductive CharClass where
  /-- An alphabet symbol, with its value. -/
  | alpha (v : Sym)
  /-- One of the four whitespace characters. -/
  | ws
  /-- The character `=`. -/
  | pad
  /-- Every other code. -/
  | other
  deriving DecidableEq, Repr

/-- The class of every 16-bit character code (R100), the whole code compared (R69). The codes of
`=` and of the whitespace characters are ASCII's (assumption log 10). -/
def classify (c : CharCode) : CharClass :=
  if 65 ≤ c.toNat ∧ c.toNat ≤ 90 then .alpha (BitVec.ofNat 5 (c.toNat - 65))
  else if 50 ≤ c.toNat ∧ c.toNat ≤ 55 then .alpha (BitVec.ofNat 5 (c.toNat - 24))
  else if c.toNat = 9 ∨ c.toNat = 10 ∨ c.toNat = 13 ∨ c.toNat = 32 then .ws
  else if c.toNat = 61 then .pad
  else .other

/-- `STRIP = WS ∪ PAD` (R100): the characters the decoder strips from the tail. -/
def isStrip (c : CharCode) : Bool :=
  match classify c with
  | .ws      => true
  | .pad     => true
  | .alpha _ => false
  | .other   => false

/-- `trunc_40((buf << 8) | D)` (R84): one more byte in the low bits. -/
def pushByte (buf : Buf) (d : Byte) : Buf := (buf <<< 8) ||| d.setWidth 40

/-- `trunc_40((buf << 5) | v)` (R110): one more symbol value in the low bits. -/
def pushSym (buf : Buf) (v : Sym) : Buf := (buf <<< 5) ||| v.setWidth 40

/-- The low `5 * n` bits of `v` as `n` symbol values, the most significant first (R43). -/
def symbolsOf : Nat → Buf → List Sym
  | 0,     _ => []
  | n + 1, v => v.extractLsb' (5 * n) 5 :: symbolsOf n v

/-- The low `8 * n` bits of `u` as `n` bytes, the most significant first (R45). -/
def bytesOf : Nat → Buf → List Byte
  | 0,     _ => []
  | n + 1, u => u.extractLsb' (8 * n) 8 :: bytesOf n u

/-- The eight characters of a full group (R81): the symbols `w[39:35]` down to `w[4:0]`. -/
def groupChars (w : Buf) : List Byte := (symbolsOf 8 w).map rom

/-- A row of the encoder's tail table T (R82). -/
structure EncTail where
  /-- `ns`: the number of symbols. -/
  ns : Nat
  /-- `sh`: the number of zero bits appended. -/
  sh : Nat
  /-- `np`: the number of pad characters. -/
  np : Nat
  deriving DecidableEq, Repr

/-- The table T of R82, by the number `r` of bytes of the partial group; with no byte there is
nothing to append. The row of 1 is the 8 + 2 reading of 90_conflicts.md C1. -/
def encTail (r : Fin 5) : EncTail :=
  match r with
  | 0 => { ns := 0, sh := 0, np := 0 }
  | 1 => { ns := 2, sh := 2, np := 6 }
  | 2 => { ns := 4, sh := 4, np := 4 }
  | 3 => { ns := 5, sh := 1, np := 3 }
  | 4 => { ns := 7, sh := 3, np := 1 }

/-- `Tail(r, w)` (R82): the symbols of the partial group `w` of `r` bytes, zero bits appended,
then the pad characters. The value `w << sh` has `5 * ns ≤ 35` bits and only those are read, so 40
bits hold all of it that the rule names. -/
def tailChars (r : Fin 5) (w : Buf) : List Byte :=
  (symbolsOf (encTail r).ns (w <<< (encTail r).sh)).map rom ++ List.replicate (encTail r).np padChar

/-- A valid row of the decoder's tail table P (R106). -/
structure DecTail where
  /-- `drop`: the number of low bits dropped. -/
  drop : Nat
  /-- `nb`: the number of bytes emitted. -/
  nb : Nat
  deriving DecidableEq, Repr

/-- The table P of R106, by the number `m` of symbols of the partial group; `none` for the counts
1, 3 and 6, which are invalid. -/
def decTail (m : Fin 8) : Option DecTail :=
  match m with
  | 0 => some { drop := 0, nb := 0 }
  | 1 => none
  | 2 => some { drop := 2, nb := 1 }
  | 3 => none
  | 4 => some { drop := 4, nb := 2 }
  | 5 => some { drop := 1, nb := 3 }
  | 6 => none
  | 7 => some { drop := 3, nb := 4 }

/-- The bytes of the partial group `w` of `m` symbols, or `none` where the count is invalid
(R106). The dropped bits are not looked at (R108). -/
def tailBytes (m : Fin 8) (w : Buf) : Option (List Byte) :=
  match decTail m with
  | none   => none
  | some p => some (bytesOf p.nb (w >>> p.drop))

/-- Whether `n` bytes fit in a pending buffer of this capacity (R135). -/
def fits : Capacity → Nat → Bool
  | .unbounded, _ => true
  | .bytes c,   n => n ≤ c

end Sys2Proof.Machine
end

