-- ==== Sys2Proof/Machine/Flags.lean ====
section
/-!
DEFINITION. The flags of the block: the two bits of `fault` (R30) and the decoder's `pad` and `err`
(R26, R27). There are no condition codes.
-/

namespace Sys2Proof.Machine

/-- The bit of `fault` a kind sets (R30, R133). -/
def faultMask : FaultKind → BitVec 2
  | .illegal  => 1#2
  | .overflow => 2#2

/-- Whether the fault bit of this kind is set. -/
def faultIs (k : FaultKind) (s : State) : Bool := s.fault &&& faultMask k != 0#2

/-- `dec.pad <- 1` (R110). -/
def markPad (s : State) : State := { s with dec := { s.dec with pad := true } }

/-- `dec.err <- 1` (R110). -/
def markErr (s : State) : State := { s with dec := { s.dec with err := true } }

end Sys2Proof.Machine
end

