-- ==== Sys2Proof/Machine/Ops.lean ====
section
/-!
DEFINITION. The named operations on the state that commands and host events are made of: raising a
command fault, emitting to and taking from a queue, starting a unit's next message, accepting a
symbol, reset.
-/

namespace Sys2Proof.Machine

/-- `raise Fault(kind)` (R133), the block's whole "exception entry": the kind's bit of `fault` is
set and nothing else happens. No pc or status is saved, no control moves (R139), and there is no
return from it (R140): only reset clears the bit. -/
def raiseFault (k : FaultKind) (s : State) : State := { s with fault := s.fault ||| faultMask k }

/-- `Emit(enc_out, ...)` (R10): append items at the end of `enc_out`. -/
def emitEnc (items : List EncItem) (s : State) : State := { s with encOut := s.encOut ++ items }

/-- `Emit(dec_out, ...)` (R10): append items at the end of `dec_out`. -/
def emitDec (items : List DecItem) (s : State) : State := { s with decOut := s.decOut ++ items }

/-- The encoder unit back at its start-of-message values (R35, R36). -/
def startEnc (s : State) : State := { s with enc := Enc.start }

/-- The decoder unit back at its start-of-message values (R35, R36). -/
def startDec (s : State) : State := { s with dec := Dec.start }

/-- One byte into the encoder's partial group, short of completing it (R84). -/
def holdByte (w : Buf) (k : Nat) (s : State) : State :=
  { s with enc := { buf := w, cnt := Fin.ofNat 5 k } }

/-- The eighth symbol has completed the group `w` (R110): its five bytes go to `dec.pend`, or,
where they do not fit, `Fault(OVERFLOW)` is raised, the bytes are dropped and `dec.err` is set
(R135); either way the partial group is empty again. -/
def finishGroup (w : Buf) (s : State) : State :=
  if fits s.decCap (s.dec.pend.length + 5) then
    { s with dec := { s.dec with buf := 0, cnt := 0, pend := s.dec.pend ++ bytesOf 5 w } }
  else
    raiseFault .overflow { s with dec := { s.dec with buf := 0, cnt := 0, err := true } }

/-- One symbol value into the decoder's partial group (R110). -/
def acceptSymbol (v : Sym) (s : State) : State :=
  if s.dec.cnt.val + 1 = 8 then
    finishGroup (pushSym s.dec.buf v) s
  else
    { s with dec := { s.dec with buf := pushSym s.dec.buf v, cnt := Fin.ofNat 8 (s.dec.cnt.val + 1) } }

/-- The result of the message that a DEC_END closes (R111): invalid on an error or on a symbol
count of 1, 3 or 6 modulo 8; else the pending bytes and the tail bytes. -/
def messageResult (d : Dec) : DecodeResult :=
  if d.err then .invalid
  else match tailBytes d.cnt d.buf with
    | none      => .invalid
    | some tail => .valid (d.pend ++ tail)

/-- The items that deliver a result on `dec_out` (R31, R111). -/
def resultItems : DecodeResult → List DecItem
  | .valid bytes => bytes.map .byte ++ [.endValid]
  | .invalid     => [.endInvalid]

/-- The handshake on `eo_*` (R154): the head of `enc_out` is removed. With the queue empty
`eo_valid` is 0, there is no handshake, and nothing changes (assumption log 4). -/
def takeEncItem (s : State) : State := { s with encOut := s.encOut.tail }

/-- The handshake on `do_*` (R154), as for `enc_out`. -/
def takeDecItem (s : State) : State := { s with decOut := s.decOut.tail }

/-- `rst` asserted (R150): every field of the block at its reset value, both queues lost (R151).
The parameter and the host's coming actions are not the block's state and stay (assumption log
5). -/
def resetBlock (s : State) : State := { State.resetWith s.decCap with input := s.input }

end Sys2Proof.Machine
end

