-- ==== Sys2Proof/Machine/Decoder.lean ====
section
/-!
DEFINITION. The meanings of the decoder unit's commands, DEC_CHAR (R110) and DEC_END (R111).
-/

namespace Sys2Proof.Machine

/-- DEC_CHAR C (R110). A malformed message ignores the rest of its characters (R113). -/
def execDecChar (c : CharCode) (s : State) : Host.Outcome State Fault Refusal :=
  if s.dec.err then .next s
  else match classify c with
    | .alpha v => if s.dec.pad then .next (markErr s) else .next (acceptSymbol v s)
    | .ws      => .next s
    | .pad     => .next (markPad s)
    | .other   => .next (markErr s)

/-- DEC_END (R111): the message's result on `dec_out`, and the unit at its start-of-message
values. -/
def execDecEnd (s : State) : Host.Outcome State Fault Refusal :=
  .next (startDec (emitDec (resultItems (messageResult s.dec)) s))

end Sys2Proof.Machine
end

