-- ==== Sys2Proof/Machine/Encoder.lean ====
section
/-!
DEFINITION. The meanings of the encoder unit's commands, ENC_BYTE (R84) and ENC_END (R85).
-/

namespace Sys2Proof.Machine

/-- ENC_BYTE D (R84). The fifth byte of a group emits the group's eight characters and empties the
buffer. -/
def execEncByte (d : Byte) (s : State) : Host.Outcome State Fault Refusal :=
  let w := pushByte s.enc.buf d
  let k := s.enc.cnt.val + 1
  if k = 5 then .next (startEnc (emitEnc ((groupChars w).map .chr) s))
  else .next (holdByte w k s)

/-- ENC_END (R85): the partial group's symbols and pad characters, then `EndMsg`. -/
def execEncEnd (s : State) : Host.Outcome State Fault Refusal :=
  .next (startEnc (emitEnc ((tailChars s.enc.cnt s.enc.buf).map .chr ++ [.endMsg]) s))

end Sys2Proof.Machine
end

