-- ==== Sys2Proof/Machine/Port.lean ====
section
/-!
DEFINITION. The block's ports at the transaction level (R154): what each action of the host does,
and what the host reads.
-/

namespace Sys2Proof.Machine

/-- A command word is accepted at the command port (R154): a legal word's command takes effect; an
illegal word raises `Fault(ILLEGAL)` and has no other effect (R134), never reaching a unit. -/
def acceptWord (w : Word) (s : State) : Host.Outcome State Fault Refusal :=
  match decode w with
  | .legal i   => exec i s
  | .illegal _ => .next (raiseFault .illegal s)

/-- What one action of the host does to the block (R150, R154, R156). -/
def applyEvent (e : HostEvent) (s : State) : Host.Outcome State Fault Refusal :=
  match e with
  | .cmd w   => acceptWord w s
  | .takeEnc => .next (takeEncItem s)
  | .takeDec => .next (takeDecItem s)
  | .rst     => .next (resetBlock s)

/-- `cmd_ready` (R154): the model's queues are unbounded and it never holds a command (R155;
assumption log 7). -/
def cmdReady (_ : State) : Bool := true

/-- `eo_valid` (R154): `enc_out` has a head. -/
def eoValid (s : State) : Bool := !s.encOut.isEmpty

/-- `eo_kind` and `eo_data` (R154), the head of `enc_out`: 0 and the character, or 1 and 0. `none`
while `eo_valid` is 0, where the spec gives the two ports no value (assumption log 14). -/
def eoHead (s : State) : Option (BitVec 1 × Byte) :=
  match s.encOut with
  | []             => none
  | .chr c :: _    => some (0#1, c)
  | .endMsg :: _   => some (1#1, 0#8)

/-- `do_valid` (R154): `dec_out` has a head. -/
def doValid (s : State) : Bool := !s.decOut.isEmpty

/-- `do_kind` and `do_data` (R154), the head of `dec_out`: 0 and the byte, 1 and 0 for `EndValid`,
2 and 0 for `EndInvalid`. `none` while `do_valid` is 0 (assumption log 14). -/
def doHead (s : State) : Option (BitVec 2 × Byte) :=
  match s.decOut with
  | []                => none
  | .byte b :: _      => some (0#2, b)
  | .endValid :: _    => some (1#2, 0#8)
  | .endInvalid :: _  => some (2#2, 0#8)

/-- The `fault` port (R154), readable at any time. -/
def faultPort (s : State) : BitVec 2 := s.fault

/-- The code a host presents for a character (R70): a code of at most 16 bits unchanged, a wider
one as 0xFFFF, which classifies OTHER (the spec's example; assumption log 13). -/
def presentChar (code : Nat) : CharCode := if code ≤ 0xFFFF then BitVec.ofNat 16 code else 0xFFFF#16

end Sys2Proof.Machine
end

