-- ==== Sys2Proof/Machine/Step.lean ====
section
/-!
DEFINITION. One step of the block: the host's next action takes its whole effect (R49). The block
has no program counter and fetches nothing (R29, R52): a command runs when the host presents it.
-/

namespace Sys2Proof.Machine

/-- One step: the next action of the host is applied, and is no longer to come. With no action to
come the block is idle and nothing changes (assumption log 2). -/
def step (s : State) : Host.Outcome State Fault Refusal :=
  match s.input with
  | []        => .next s
  | e :: rest => applyEvent e { s with input := rest }

/-- The host's next action is to present the word the opcode table numbers as `w` (assumption logs
2 and 11). -/
def State.withFetchWord (s : State) (nbits w : Nat) : State :=
  { s with input := .cmd (tableWord nbits w) :: s.input }

end Sys2Proof.Machine
end

