-- ==== Sys2Proof/Machine/Reference.lean ====
section
/-!
DEFINITION. The source's two whole-message functions, `Encode` (R80 to R83) and `Decode` (R102 to
R107), written apart from the commands: obligations say that the commands realise them.
-/

namespace Sys2Proof.Machine

/-- `Group(d0, d1, d2, d3, d4)` (R81), slice by slice. -/
def refGroup (d0 d1 d2 d3 d4 : Byte) : List Byte :=
  let w : Buf := d0 ++ d1 ++ d2 ++ d3 ++ d4
  [ rom (w.extractLsb' 35 5), rom (w.extractLsb' 30 5), rom (w.extractLsb' 25 5),
    rom (w.extractLsb' 20 5), rom (w.extractLsb' 15 5), rom (w.extractLsb' 10 5),
    rom (w.extractLsb' 5 5),  rom (w.extractLsb' 0 5) ]

/-- `Tail` of a partial group (R82), symbol by symbol as the last column of its table has them; a
list of five bytes or more is no partial group. -/
def refTail : List Byte → List Byte
  | [] => []
  | [d0] =>
    [ rom (d0.extractLsb' 3 5), rom (d0.extractLsb' 0 3 ++ 0#2) ] ++ List.replicate 6 padChar
  | [d0, d1] =>
    [ rom (d0.extractLsb' 3 5), rom (d0.extractLsb' 0 3 ++ d1.extractLsb' 6 2),
      rom (d1.extractLsb' 1 5), rom (d1.extractLsb' 0 1 ++ 0#4) ] ++ List.replicate 4 padChar
  | [d0, d1, d2] =>
    [ rom (d0.extractLsb' 3 5), rom (d0.extractLsb' 0 3 ++ d1.extractLsb' 6 2),
      rom (d1.extractLsb' 1 5), rom (d1.extractLsb' 0 1 ++ d2.extractLsb' 4 4),
      rom (d2.extractLsb' 0 4 ++ 0#1) ] ++ List.replicate 3 padChar
  | [d0, d1, d2, d3] =>
    [ rom (d0.extractLsb' 3 5), rom (d0.extractLsb' 0 3 ++ d1.extractLsb' 6 2),
      rom (d1.extractLsb' 1 5), rom (d1.extractLsb' 0 1 ++ d2.extractLsb' 4 4),
      rom (d2.extractLsb' 0 4 ++ d3.extractLsb' 7 1), rom (d3.extractLsb' 2 5),
      rom (d3.extractLsb' 0 2 ++ 0#3) ] ++ List.replicate 1 padChar
  | _ => []

/-- `Encode(b)` (R80, R83): the groups of five bytes in order, then the tail. -/
def refEncode : List Byte → List Byte
  | d0 :: d1 :: d2 :: d3 :: d4 :: rest => refGroup d0 d1 d2 d3 d4 ++ refEncode rest
  | tail => refTail tail

/-- `limit` (R102): the effective length, what is left when the trailing `=` and whitespace are
stripped, scanning backward from the end to the first other character. -/
def effectiveLength (t : List CharCode) : Nat := (t.reverse.dropWhile isStrip).length

/-- The running values of `Decode`'s forward scan (R107): `out`, `inCount` and `w`. -/
structure Scan where
  out : List Byte
  inCount : Nat
  w : Buf
  deriving DecidableEq, Repr

/-- One symbol value of the forward scan (R105, R107): the eighth of a group emits its five bytes. -/
def scanSymbol (a : Scan) (v : Sym) : Scan :=
  let w := pushSym a.w v
  if (a.inCount + 1) % 8 = 0 then
    { out := a.out ++ [w.extractLsb' 32 8, w.extractLsb' 24 8, w.extractLsb' 16 8,
        w.extractLsb' 8 8, w.extractLsb' 0 8],
      inCount := a.inCount + 1, w := 0 }
  else
    { out := a.out, inCount := a.inCount + 1, w := w }

/-- The forward scan (R103, R104, R107): whitespace is skipped, `=` and every other character
outside the alphabet rejects. -/
def scanForward : List CharCode → Scan → Option Scan
  | [],     a => some a
  | c :: t, a =>
    match classify c with
    | .alpha v => scanForward t (scanSymbol a v)
    | .ws      => scanForward t a
    | .pad     => none
    | .other   => none

/-- The tail policy (R106) on the values of a finished scan, row by row of its table. -/
def tailPolicy (a : Scan) : DecodeResult :=
  match a.inCount % 8 with
  | 0 => .valid a.out
  | 2 => .valid (a.out ++ [a.w.extractLsb' 2 8])
  | 4 => .valid (a.out ++ [a.w.extractLsb' 12 8, a.w.extractLsb' 4 8])
  | 5 => .valid (a.out ++ [a.w.extractLsb' 17 8, a.w.extractLsb' 9 8, a.w.extractLsb' 1 8])
  | 7 => .valid (a.out ++ [a.w.extractLsb' 27 8, a.w.extractLsb' 19 8, a.w.extractLsb' 11 8,
           a.w.extractLsb' 3 8])
  | _ => .invalid

/-- `Decode(t)` (R107). -/
def refDecode (t : List CharCode) : DecodeResult :=
  match scanForward (t.take (effectiveLength t)) { out := [], inCount := 0, w := 0 } with
  | none   => .invalid
  | some a => tailPolicy a

/-- The symbol values among the characters of a text, in order. -/
def alphaValues (t : List CharCode) : List Sym :=
  t.filterMap (fun c => match classify c with
    | .alpha v => some v
    | .ws      => none
    | .pad     => none
    | .other   => none)

/-- The number of alphabet symbols of a text: `inCount` where the text has no error (R13, R106). -/
def symbolCount (t : List CharCode) : Nat := (alphaValues t).length

/-- The bytes of a partial group in one buffer, the first highest (R21, R44). -/
def packBytes (ds : List Byte) : Buf := ds.foldl pushByte 0

/-- The symbol values of a partial group in one buffer, the first highest (R24, R43). -/
def packSyms (vs : List Sym) : Buf := vs.foldl pushSym 0

end Sys2Proof.Machine
end

