-- ==== Sys2Proof/Machine/Program.lean ====
section
/-!
DEFINITION. Messages and programs (R66, R72, R157): the commands of one message, running a list of
commands, closed programs, and what a host makes of the items it takes.
-/

namespace Sys2Proof.Machine

/-- The pseudo-instruction `ENC_MSG b0, ..., b(n-1)` (R72). -/
def encMsg (b : List Byte) : List Instr := b.map .encByte ++ [.encEnd]

/-- The pseudo-instruction `DEC_STR t` (R72). -/
def decStr (t : List CharCode) : List Instr := t.map .decChar ++ [.decEnd]

/-- A list of commands applied in order (R49, R157). -/
def runCommands : List Instr → State → Host.Outcome State Fault Refusal
  | [],      s => .next s
  | i :: is, s =>
    match exec i s with
    | .next t    => runCommands is t
    | .fault r   => .fault r
    | .refused r => .refused r

/-- The state in which the host is about to present these words, in order, before whatever it was
going to do. -/
def presentWords (ws : List Word) (s : State) : State :=
  { s with input := ws.map .cmd ++ s.input }

/-- The command words of a program (R157). -/
def programWords (p : List Instr) : List Word := p.map encode

/-- Whether the encoder's last message is still open at the end of a program (R66). -/
def encOpen (p : List Instr) : Bool :=
  p.foldl (fun isOpen i => match i with
    | .encByte _ => true
    | .encEnd    => false
    | .decChar _ => isOpen
    | .decEnd    => isOpen) false

/-- Whether the decoder's last message is still open at the end of a program (R66). -/
def decOpen (p : List Instr) : Bool :=
  p.foldl (fun isOpen i => match i with
    | .encByte _ => isOpen
    | .encEnd    => isOpen
    | .decChar _ => true
    | .decEnd    => false) false

/-- A closed program (R157): no data command of a unit comes after the unit's last end command. -/
def closedProgram (p : List Instr) : Bool := !encOpen p && !decOpen p

/-- A closed list of command words; an illegal word is no part of any message (R66, R134). -/
def closedWords (ws : List Word) : Bool :=
  closedProgram (ws.filterMap (fun w => (decode w).instr?))

/-- The encode messages of a program, each the bytes of one message (R66); `acc` is the message in
progress. A message still open at the end is left out. -/
def encInputs : List Byte → List Instr → List (List Byte)
  | _,   [] => []
  | acc, i :: is =>
    match i with
    | .encByte d => encInputs (acc ++ [d]) is
    | .encEnd    => acc :: encInputs [] is
    | .decChar _ => encInputs acc is
    | .decEnd    => encInputs acc is

/-- The decode messages of a program, each the characters of one message (R66). -/
def decInputs : List CharCode → List Instr → List (List CharCode)
  | _,   [] => []
  | acc, i :: is =>
    match i with
    | .encByte _ => decInputs acc is
    | .encEnd    => decInputs acc is
    | .decChar c => decInputs (acc ++ [c]) is
    | .decEnd    => acc :: decInputs [] is

/-- The encoded messages in a queue: its items split at each `EndMsg` (R156, R157). -/
def encMessages : List Byte → List EncItem → List (List Byte)
  | _,   [] => []
  | acc, .chr c :: r  => encMessages (acc ++ [c]) r
  | acc, .endMsg :: r => acc :: encMessages [] r

/-- The characters of the encoded message still open in a queue: those after its last `EndMsg`. -/
def openChars : List Byte → List EncItem → List Byte
  | acc, [] => acc
  | acc, .chr c :: r  => openChars (acc ++ [c]) r
  | _,   .endMsg :: r => openChars [] r

/-- The decode results in a queue: its items split at each `EndValid` or `EndInvalid` (R156, R157). -/
def decResults : List Byte → List DecItem → List DecodeResult
  | _,   [] => []
  | acc, .byte b :: r     => decResults (acc ++ [b]) r
  | acc, .endValid :: r   => .valid acc :: decResults [] r
  | _,   .endInvalid :: r => .invalid :: decResults [] r

/-- The items that carry one encoded message. -/
def messageItems (chars : List Byte) : List EncItem := chars.map .chr ++ [.endMsg]

/-- The observation of a closed program (R157). -/
structure Observation where
  encoded : List (List Byte)
  decoded : List DecodeResult
  fault   : BitVec 2
  deriving DecidableEq, Repr

/-- What a run that ended in `s`, the host having taken nothing from the queues, shows (R157;
assumption log 17). -/
def observe (s : State) : Observation where
  encoded := encMessages [] s.encOut
  decoded := decResults [] s.decOut
  fault   := s.fault

end Sys2Proof.Machine
end

