-- ==== Sys2Proof/Machine/Assembler.lean ====
section
/-!
DEFINITION. The assembler of R71 and R72: a source text to the commands it stands for, refusing by
name. The text is read as a list of character codes; the codes named below are ASCII's (assumption
logs 10 and 12). Where R71 leaves the text's form open, assumption log 12 says what is taken.
-/

namespace Sys2Proof.Machine

/-- Why a line is refused. -/
inductive AsmError where
  /-- The line begins with no mnemonic of R71 or R72. -/
  | mnemonic
  /-- An operand has none of the forms of R71, or is missing. -/
  | operand
  /-- An operand's value is out of its range (R71: refused, never wrapped). -/
  | range
  /-- Text stands after the operands that is no comment. -/
  | trailing
  deriving DecidableEq, Repr

/-- The character codes of a text. DESIGN CHOICE (assumption log 19): the code of a character, beyond
ASCII too, is its Unicode code point, where R71 says only "its code"; so U+00E9 in a literal is
0xE9. A code point above 0xFFFF is out of every operand's range and refused, never cut. -/
def codesOf (text : String) : List Nat := text.toList.map Char.toNat

/-- Space, tab and carriage return separate the parts of a line. -/
def isBlank (c : Nat) : Bool := c == 32 || c == 9 || c == 13

/-- A character a mnemonic or a number is written with: a letter, a digit or `_`. -/
def isNameCode (c : Nat) : Bool :=
  (48 ≤ c && c ≤ 57) || (65 ≤ c && c ≤ 90) || (97 ≤ c && c ≤ 122) || c == 95

/-- The text after its leading blanks. -/
def skipBlanks (t : List Nat) : List Nat := t.dropWhile isBlank

/-- The value of a digit in a base up to 16, letters in either case (DESIGN CHOICE, assumption log
12). -/
def digitValue (base c : Nat) : Option Nat :=
  let v := if 48 ≤ c ∧ c ≤ 57 then some (c - 48)
    else if 65 ≤ c ∧ c ≤ 70 then some (c - 55)
    else if 97 ≤ c ∧ c ≤ 102 then some (c - 87)
    else none
  match v with
  | none   => none
  | some d => if d < base then some d else none

/-- The value of a run of digits, most significant first, after `acc`. -/
def digitsValue (base : Nat) : List Nat → Nat → Option Nat
  | [],      acc => some acc
  | c :: cs, acc =>
    match digitValue base c with
    | none   => none
    | some d => digitsValue base cs (acc * base + d)

/-- A number (R71): decimal, or hexadecimal after `0x` (48, 120). -/
def numberValue : List Nat → Option Nat
  | []              => none
  | [48, 120]       => none
  | 48 :: 120 :: ds => digitsValue 16 ds 0
  | ds              => digitsValue 10 ds 0

/-- The one-character escapes of R71: `\n`, `\r`, `\t`, `\'`, `\\`. -/
def escapeValue (c : Nat) : Option Nat :=
  if c = 110 then some 10
  else if c = 114 then some 13
  else if c = 116 then some 9
  else if c = 39 then some 39
  else if c = 92 then some 92
  else none

/-- The value of a character literal (R71) after its opening quote (39), and the text after its
closing one. A backslash (92) begins an escape, `\u` (117) one of four hexadecimal digits. A quote
or a backslash without its escape is refused (DESIGN CHOICE, assumption log 12). -/
def charLiteral : List Nat → Option (Nat × List Nat)
  | 92 :: 117 :: a :: b :: c :: d :: 39 :: r =>
    match digitsValue 16 [a, b, c, d] 0 with
    | none   => none
    | some v => some (v, r)
  | 92 :: e :: 39 :: r =>
    match escapeValue e with
    | none   => none
    | some v => some (v, r)
  | c :: 39 :: r => if c = 92 ∨ c = 39 then none else some (c, r)
  | _ => none

/-- One operand of R71, a number or a character literal, and the text after it. -/
def operandValue (t : List Nat) : Except AsmError (Nat × List Nat) :=
  match skipBlanks t with
  | 39 :: r =>
    match charLiteral r with
    | none   => .error .operand
    | some p => .ok p
  | t' =>
    match numberValue (t'.takeWhile isNameCode) with
    | none   => .error .operand
    | some v => .ok (v, t'.dropWhile isNameCode)

/-- ENC_BYTE with an operand value (R71): 0..255. -/
def encByteOf (v : Nat) : Except AsmError Instr :=
  if v ≤ 255 then .ok (.encByte (BitVec.ofNat 8 v)) else .error .range

/-- DEC_CHAR with an operand value (R71): 0..65535. -/
def decCharOf (v : Nat) : Except AsmError Instr :=
  if v ≤ 65535 then .ok (.decChar (BitVec.ofNat 16 v)) else .error .range

/-- What follows a line's operands: nothing, or a comment (59 is `;`), with or without a blank
before it (DESIGN CHOICE, assumption log 12). -/
def lineEnd (t : List Nat) (is : List Instr) : Except AsmError (List Instr) :=
  match skipBlanks t with
  | []      => .ok is
  | 59 :: _ => .ok is
  | _       => .error .trailing

/-- The operands of ENC_MSG (R72), one or more, commas (44) between them, at most `fuel` of them. -/
def encMsgOperands : Nat → List Nat → Except AsmError (List Instr × List Nat)
  | 0,        _ => .error .operand
  | fuel + 1, t =>
    match operandValue t with
    | .error e => .error e
    | .ok (v, r) =>
      match encByteOf v with
      | .error e => .error e
      | .ok i =>
        match skipBlanks r with
        | 44 :: r' =>
          match encMsgOperands fuel r' with
          | .error e      => .error e
          | .ok (is, r'') => .ok (i :: is, r'')
        | r' => .ok ([i], r')

/-- The characters of DEC_STR's string (R72) after its opening quote (34), and the text after its
closing one. A `;` or a `'` in the string is that character (DESIGN CHOICE, assumption log 12). -/
def stringBody : List Nat → Except AsmError (List Instr × List Nat)
  | [] => .error .operand
  | 34 :: r => .ok ([], r)
  | 92 :: 117 :: a :: b :: c :: d :: r =>
    match digitsValue 16 [a, b, c, d] 0, stringBody r with
    | none,   _            => .error .operand
    | some _, .error e     => .error e
    | some v, .ok (is, r') => .ok (.decChar (BitVec.ofNat 16 v) :: is, r')
  | 92 :: e :: r =>
    match (if e = 34 then some 34 else escapeValue e), stringBody r with
    | none,   _            => .error .operand
    | some _, .error e     => .error e
    | some v, .ok (is, r') => .ok (.decChar (BitVec.ofNat 16 v) :: is, r')
  | c :: r =>
    match decCharOf c, stringBody r with
    | .error e, _            => .error e
    | .ok _,    .error e     => .error e
    | .ok i,    .ok (is, r') => .ok (i :: is, r')

/-- The commands of the statement whose mnemonic is `name` and whose text after it is `t`. -/
def assembleStatement (name t : List Nat) : Except AsmError (List Instr) :=
  if name = codesOf "ENC_BYTE" then
    match operandValue t with
    | .error e => .error e
    | .ok (v, r) =>
      match encByteOf v with
      | .error e => .error e
      | .ok i    => lineEnd r [i]
  else if name = codesOf "DEC_CHAR" then
    match operandValue t with
    | .error e => .error e
    | .ok (v, r) =>
      match decCharOf v with
      | .error e => .error e
      | .ok i    => lineEnd r [i]
  else if name = codesOf "ENC_END" then lineEnd t [.encEnd]
  else if name = codesOf "DEC_END" then lineEnd t [.decEnd]
  else if name = codesOf "ENC_MSG" then
    match skipBlanks t with
    | []      => .ok [.encEnd]
    | 59 :: _ => .ok [.encEnd]
    | t'      =>
      match encMsgOperands t'.length t' with
      | .error e    => .error e
      | .ok (is, r) => lineEnd r (is ++ [.encEnd])
  else if name = codesOf "DEC_STR" then
    match skipBlanks t with
    | 34 :: r =>
      match stringBody r with
      | .error e     => .error e
      | .ok (is, r') => lineEnd r' (is ++ [.decEnd])
    | _ => .error .operand
  else .error .mnemonic

/-- The commands of one line (R71): none for a line that is blank or only a comment. DESIGN CHOICE
(assumption log 12): the mnemonic is the longest run of letters, digits and `_`, and no blank is
required between it and its operand, on which R71 is silent. -/
def assembleLine (t : List Nat) : Except AsmError (List Instr) :=
  match skipBlanks t with
  | []      => .ok []
  | 59 :: _ => .ok []
  | t'      => assembleStatement (t'.takeWhile isNameCode) (t'.dropWhile isNameCode)

/-- The lines of a text, split at each newline (10). -/
def splitLines : List Nat → List (List Nat)
  | []      => [[]]
  | 10 :: r => [] :: splitLines r
  | c :: r  =>
    match splitLines r with
    | []      => [[c]]
    | l :: ls => (c :: l) :: ls

/-- The commands of a list of lines, in order, or the first line's refusal. -/
def assembleLines : List (List Nat) → Except AsmError (List Instr)
  | []      => .ok []
  | l :: ls =>
    match assembleLine l, assembleLines ls with
    | .error e, _         => .error e
    | .ok _,    .error e  => .error e
    | .ok is,   .ok rest  => .ok (is ++ rest)

/-- The commands of a source text (R71, R72); their words are `programWords` of them. -/
def assemble (text : String) : Except AsmError (List Instr) :=
  assembleLines (splitLines (codesOf text))

end Sys2Proof.Machine
end

