-- ==== Sys2Proof/Safety.lean ====
section
/-!
DEFINITION. What counts as a successful end of a run (R136, R157), and the invariants a statement
may ask of a state (R37).
-/

namespace Sys2Proof.Safety

open Sys2Proof.Machine

/-- A state with any fault bit set is a faulted state, never a successful final state (R136). -/
def faulted (s : State) : Bool := s.fault != 0#2

/-- A run of the program `p` that ended in `s` has ended successfully: the program is closed (R157)
and the state is not a faulted one (R136). -/
def successful (p : List Instr) (s : State) : Bool := closedProgram p && !faulted s

/-- The invariant of the encoder unit (R37): the buffer holds nothing above its `cnt` bytes. That
`cnt` is at most 4 is its type. -/
abbrev EncOk (e : Enc) : Prop := e.buf.toNat < 2 ^ (8 * e.cnt.val)

/-- The invariant of the decoder unit (R37): the buffer holds nothing above its `cnt` symbols, and
whole groups wait in `pend`, within the capacity. That `cnt` is at most 7 is its type. -/
abbrev DecOk (cap : Capacity) (d : Dec) : Prop :=
  d.buf.toNat < 2 ^ (5 * d.cnt.val) ∧ d.pend.length % 5 = 0 ∧ fits cap d.pend.length = true

/-- The invariants of R37 that speak of one state. -/
abbrev Inv (s : State) : Prop := EncOk s.enc ∧ DecOk s.decCap s.dec

/-- The codes of the alphabet's characters (R86): `{65..90} ∪ {50..55}`. -/
abbrev alphabetCode (c : Byte) : Prop := (65 ≤ c.toNat ∧ c.toNat ≤ 90) ∨ (50 ≤ c.toNat ∧ c.toNat ≤ 55)

/-- The shape of one encoded message's characters (R86, R87): alphabet codes, then pad characters
only. -/
def wellPadded (chars : List Byte) : Prop :=
  ∃ (syms : List Byte) (n : Nat), chars = syms ++ List.replicate n padChar ∧ ∀ c ∈ syms, alphabetCode c

/-- What the encoder leaves in its queue (R86, R87): every finished message is alphabet codes and
then padding, and the message still open is alphabet codes alone. -/
def EncQueueOk (s : State) : Prop :=
  (∀ m ∈ encMessages [] s.encOut, wellPadded m) ∧ ∀ c ∈ openChars [] s.encOut, alphabetCode c

/-- Whether this command would raise `Fault(OVERFLOW)` in this state (R135): a DEC_CHAR of a message
so far well formed, whose symbol is the eighth of a group that does not fit in `dec.pend`. -/
def overflowsAt (i : Instr) (s : State) : Bool :=
  match i with
  | .encByte _ => false
  | .encEnd    => false
  | .decChar c =>
    match classify c with
    | .alpha _ => !s.dec.err && !s.dec.pad && s.dec.cnt.val == 7 && !fits s.decCap (s.dec.pend.length + 5)
    | .ws      => false
    | .pad     => false
    | .other   => false
  | .decEnd    => false

/-- Whether some command of a run raises `Fault(OVERFLOW)` (R119: "provided no Fault(OVERFLOW) is
raised"). -/
def runOverflows : List Instr → State → Bool
  | [],      _ => false
  | i :: is, s =>
    overflowsAt i s || match exec i s with
      | .next t    => runOverflows is t
      | .fault _   => false
      | .refused _ => false

end Sys2Proof.Safety
end

