-- ==== Sys2Proof/Certificates/Slice0/Obligations.lean ====
section
/-!
DEFINITION. The statements about base32_codec, for the provers. Values of a 40-bit buffer and of a
queue are written here from the rules' own arithmetic on natural numbers, apart from the functions
the meanings use; `BitVec.ofNat n v` is the rules' `trunc_n(v)`.
-/

open Sys2Proof Sys2Proof.Machine Sys2Proof.Safety

-- ---------------------------------------------------------------- command words

/-- The worked encodings of R73, each way. -/
def Obligations.WorkedEncodings : Prop :=
  (encode (.encByte 0x66) = 0x10066#20 ∧ decode 0x10066#20 = .legal (.encByte 0x66)) ∧
  (encode (.encByte 0xFF) = 0x100FF#20 ∧ decode 0x100FF#20 = .legal (.encByte 0xFF)) ∧
  (encode .encEnd = 0x20000#20 ∧ decode 0x20000#20 = .legal .encEnd) ∧
  (encode (.decChar 0x4D) = 0x9004D#20 ∧ decode 0x9004D#20 = .legal (.decChar 0x4D)) ∧
  (encode (.decChar 0x3D) = 0x9003D#20 ∧ decode 0x9003D#20 = .legal (.decChar 0x3D)) ∧
  (encode (.decChar 0x20) = 0x90020#20 ∧ decode 0x90020#20 = .legal (.decChar 0x20)) ∧
  (encode (.decChar 0x0141) = 0x90141#20 ∧ decode 0x90141#20 = .legal (.decChar 0x0141)) ∧
  (encode .decEnd = 0xA0000#20 ∧ decode 0xA0000#20 = .legal .decEnd) ∧
  decode 0x00000#20 = .illegal (.opcode 0) ∧
  decode 0x10166#20 = .illegal (.encByteHigh 0x01)

/-- Decode and encode agree on every well-formed instruction (R62 to R65, R69): no bit of an
operand is dropped. -/
def Obligations.DecodeOfEncode : Prop :=
  ∀ i : Instr, i.wellFormed = true → decode (encode i) = .legal i

/-- A legal word is the encoding of the command it decodes to: no two legal words mean the same
command (R68). -/
def Obligations.EncodeOfDecode : Prop :=
  ∀ (w : Word) (i : Instr), decode w = .legal i → encode i = w

/-- The decoder accepts exactly the words that match a row of the opcode table (R67, R68). -/
def Obligations.LegalWordsMatchTheTable : Prop :=
  ∀ w : Word, (∃ i, decode w = .legal i) ↔
    (w &&& 0xFFF00#20 = 0x10000#20 ∨ w &&& 0xFFFFF#20 = 0x20000#20 ∨
     w &&& 0xF0000#20 = 0x90000#20 ∨ w &&& 0xFFFFF#20 = 0xA0000#20)

/-- The count of R67: 65794 of the 2^20 words are legal. -/
def Obligations.LegalWordCount : Prop :=
  ∃ ws : List Word, ws.Nodup ∧ ws.length = 65794 ∧ ∀ w : Word, w ∈ ws ↔ ∃ i, decode w = .legal i

-- ---------------------------------------------------------------- the step

/-- A step whose next word carries a legal command runs exactly that command, on the state in which
the word is no longer to come; and whatever the word, the step is its acceptance at the port. That
the words to come stand in the state is the model's form (assumption log 2). -/
def Obligations.StepRunsTheDecodedCommand : Prop :=
  ∀ (s : State) (w : Word) (rest : List HostEvent), s.input = .cmd w :: rest →
    step s = acceptWord w { s with input := rest } ∧
    ∀ i : Instr, decode w = .legal i → step s = exec i { s with input := rest }

/-- R134: accepting an illegal word (one that matches no row of the table) sets the ILLEGAL bit and
changes nothing else. -/
def Obligations.IllegalWordSetsIllegalOnly : Prop :=
  ∀ (s : State) (w : Word), wordWellFormed w = false →
    acceptWord w s = .next { s with fault := s.fault ||| 1#2 }

/-- With nothing presented the block is idle. The model's choice (assumption log 2). -/
def Obligations.IdleStepChangesNothing : Prop :=
  ∀ s : State, s.input = [] → step s = .next s

/-- The host's handshakes (R154, R156): the head of the queue is removed and nothing else changes;
with the queue empty there is no head to remove (assumption log 4). -/
def Obligations.HostTakesQueueHeads : Prop :=
  ∀ (s : State) (rest : List HostEvent),
    (s.input = .takeEnc :: rest →
      (∀ x q, s.encOut = x :: q → step s = .next { s with encOut := q, input := rest }) ∧
      (s.encOut = [] → step s = .next { s with input := rest })) ∧
    (s.input = .takeDec :: rest →
      (∀ x q, s.decOut = x :: q → step s = .next { s with decOut := q, input := rest }) ∧
      (s.decOut = [] → step s = .next { s with input := rest }))

/-- What the host reads at the queues' ports (R154): the kind and the data of each item. -/
def Obligations.PortsShowQueueHeads : Prop :=
  ∀ (s : State),
    (∀ c q, s.encOut = .chr c :: q → eoHead s = some (0, c)) ∧
    (∀ q, s.encOut = .endMsg :: q → eoHead s = some (1, 0)) ∧
    (∀ b q, s.decOut = .byte b :: q → doHead s = some (0, b)) ∧
    (∀ q, s.decOut = .endValid :: q → doHead s = some (1, 0)) ∧
    (∀ q, s.decOut = .endInvalid :: q → doHead s = some (2, 0)) ∧
    (eoValid s = true ↔ s.encOut ≠ []) ∧ (doValid s = true ↔ s.decOut ≠ []) ∧
    (∀ kd, doHead s ≠ some (3, kd)) ∧ faultPort s = s.fault

/-- Every step answers a next state: no command and no word stops the block (R15, R16, R133). -/
def Obligations.EveryStepAnswersANextState : Prop :=
  ∀ s : State, ∃ t : State, step s = .next t

/-- R150, R151: `rst` sets every field of the block to its reset value, whatever the state; an end
command sent after it closes a new empty message. -/
def Obligations.ResetInputRestoresResetValues : Prop :=
  ∀ (s : State) (rest : List HostEvent), s.input = .rst :: rest →
    ∃ t : State, step s = .next t ∧
      t.enc.buf = 0 ∧ t.enc.cnt = 0 ∧
      t.dec.buf = 0 ∧ t.dec.cnt = 0 ∧ t.dec.pad = false ∧ t.dec.err = false ∧ t.dec.pend = [] ∧
      t.fault = 0 ∧ t.encOut = [] ∧ t.decOut = [] ∧
      exec .encEnd t = .next { t with encOut := [.endMsg] } ∧
      exec .decEnd t = .next { t with decOut := [.endValid] }

/-- R35: the reset value of every field, for a block of any capacity; and the unit fields hold the
same values at the start of every message, that is after every end command, while `fault` and the
queues' items stay. -/
def Obligations.ResetAndStartOfMessageValues : Prop :=
  (∀ cap : Capacity,
    (State.resetWith cap).enc = { buf := 0, cnt := 0 } ∧
    (State.resetWith cap).dec = { buf := 0, cnt := 0, pad := false, err := false, pend := [] } ∧
    (State.resetWith cap).fault = 0 ∧ (State.resetWith cap).encOut = [] ∧
    (State.resetWith cap).decOut = []) ∧
  (∀ s : State, ∃ t : State, exec .encEnd s = .next t ∧ t.enc = { buf := 0, cnt := 0 } ∧
    t.fault = s.fault ∧ s.encOut <+: t.encOut ∧ t.decOut = s.decOut) ∧
  (∀ s : State, ∃ t : State, exec .decEnd s = .next t ∧
    t.dec = { buf := 0, cnt := 0, pad := false, err := false, pend := [] } ∧
    t.fault = s.fault ∧ s.decOut <+: t.decOut ∧ t.encOut = s.encOut)

-- ---------------------------------------------------------------- the encoder's commands

/-- R84: what ENC_BYTE does, in every state. -/
def Obligations.EncByteResult : Prop :=
  ∀ (d : Byte) (s : State),
    let w : Buf := BitVec.ofNat 40 (s.enc.buf.toNat * 2 ^ 8 ||| d.toNat)
    (s.enc.cnt.val + 1 = 5 →
      exec (.encByte d) s = .next { s with
        enc := { buf := 0, cnt := 0 },
        encOut := s.encOut ++
          [ .chr (rom (w.extractLsb' 35 5)), .chr (rom (w.extractLsb' 30 5)),
            .chr (rom (w.extractLsb' 25 5)), .chr (rom (w.extractLsb' 20 5)),
            .chr (rom (w.extractLsb' 15 5)), .chr (rom (w.extractLsb' 10 5)),
            .chr (rom (w.extractLsb' 5 5)), .chr (rom (w.extractLsb' 0 5)) ] }) ∧
    (s.enc.cnt.val + 1 ≠ 5 →
      ∃ k : Fin 5, k.val = s.enc.cnt.val + 1 ∧
        exec (.encByte d) s = .next { s with enc := { buf := w, cnt := k } })

/-- R85 with its table T: what ENC_END does, in every state. A row is r, ns, sh, np. `padChar` is the
code of `=`, which the rules take from general knowledge (R11, assumption log 10). -/
def Obligations.EncEndResult : Prop :=
  ∀ s : State, ∀ row ∈ [(0, 0, 0, 0), (1, 2, 2, 6), (2, 4, 4, 4), (3, 5, 1, 3), (4, 7, 3, 1)],
    s.enc.cnt.val = row.1 →
    let ns := row.2.1
    let sh := row.2.2.1
    let np := row.2.2.2
    let v := s.enc.buf.toNat * 2 ^ sh
    exec .encEnd s = .next { s with
      enc := { buf := 0, cnt := 0 },
      encOut := s.encOut ++
        ((List.range ns).map (fun j => EncItem.chr (rom (BitVec.ofNat 5 (v / 2 ^ (5 * (ns - 1 - j))))))
          ++ List.replicate np (.chr padChar) ++ [.endMsg]) }

/-- The frame of the encoder's commands ENC_BYTE and ENC_END (R14, R84, R85): the decoder, its
queue, `fault`, the parameter and the input are unchanged, and `enc_out` only grows at its end. -/
def Obligations.EncoderCommandsFrame : Prop :=
  ∀ (i : Instr) (s t : State), ((∃ d, i = .encByte d) ∨ i = .encEnd) → exec i s = .next t →
    t.dec = s.dec ∧ t.decOut = s.decOut ∧ t.fault = s.fault ∧ t.decCap = s.decCap ∧
    t.input = s.input ∧ s.encOut <+: t.encOut

/-- R86: every character an encoder command emits, other than `=`, is a ROM entry, so it lies in
`A-Z2-7`. -/
def Obligations.EmittedSymbolsAreRomEntries : Prop :=
  ∀ (i : Instr) (s t : State) (items : List EncItem) (c : Byte),
    exec i s = .next t → t.encOut = s.encOut ++ items → .chr c ∈ items → c ≠ padChar →
    (∃ v : Sym, c = rom v) ∧ ((65 ≤ c.toNat ∧ c.toNat ≤ 90) ∨ (50 ≤ c.toNat ∧ c.toNat ≤ 55))

/-- R87: ENC_BYTE emits no `=`, and ENC_END emits its pad characters after all its symbols. -/
def Obligations.PaddingOnlyEndsAMessage : Prop :=
  (∀ (d : Byte) (s t : State) (items : List EncItem),
    exec (.encByte d) s = .next t → t.encOut = s.encOut ++ items → .chr 61 ∉ items) ∧
  (∀ s : State, ∃ (t : State) (syms : List Byte) (np : Nat), exec .encEnd s = .next t ∧
    t.encOut = s.encOut ++ (syms.map .chr ++ List.replicate np (.chr 61) ++ [.endMsg]) ∧ 61 ∉ syms)

/-- R21, R22: after the bytes `b` of a message, `enc.cnt` is their number modulo 5 and `enc.buf`
the bytes of the partial group, the first one highest. -/
def Obligations.EncoderHoldsThePartialGroup : Prop :=
  ∀ (b : List Byte) (s : State), s.enc = Enc.start →
    ∃ t : State, runCommands (b.map .encByte) s = .next t ∧
      t.enc.cnt.val = b.length % 5 ∧
      t.enc.buf.toNat = (b.drop (5 * (b.length / 5))).foldl (fun acc d => acc * 2 ^ 8 + d.toNat) 0

-- ---------------------------------------------------------------- the encoder's whole message

/-- R91: `ENC_MSG b` appends `Encode(b)` and `EndMsg` to `enc_out`, and changes nothing else. -/
def Obligations.StreamingEncodeIsTheReference : Prop :=
  ∀ (b : List Byte) (s : State), s.enc.cnt = 0 → s.enc.buf = 0 →
    runCommands (encMsg b) s =
      .next { s with encOut := s.encOut ++ ((refEncode b).map .chr ++ [.endMsg]) }

/-- R89: the length law. -/
def Obligations.EncodeLengthLaw : Prop :=
  ∀ b : List Byte, (refEncode b).length = (b.length + 4) / 5 * 8 ∧ (refEncode b).length % 8 = 0

/-- R90: the padding law, the number of trailing `=` by the length modulo 5. -/
def Obligations.EncodePaddingLaw : Prop :=
  ∀ b : List Byte, ∀ row ∈ [(0, 0), (1, 6), (2, 4), (3, 3), (4, 1)], b.length % 5 = row.1 →
    ((refEncode b).reverse.takeWhile (fun c => c == padChar)).length = row.2

/-- The encoder's queue keeps its shape (R86, R87) at every step of the machine, the host's takes
among them: finished messages are alphabet codes and then padding, the open one alphabet codes. -/
def Obligations.StepKeepsTheEncoderQueueShape : Prop :=
  ∀ s t : State, EncQueueOk s → step s = .next t → EncQueueOk t

-- ---------------------------------------------------------------- the decoder's commands

/-- R41: the contents of the alphabet ROM. -/
def Obligations.RomContents : Prop :=
  ∀ i : Sym, (i.toNat ≤ 25 → (rom i).toNat = 65 + i.toNat) ∧ (26 ≤ i.toNat → (rom i).toNat = 24 + i.toNat)

/-- R100: every character code falls in exactly the class its row gives. -/
def Obligations.ClassesOfCharacterCodes : Prop :=
  ∀ c : CharCode,
    (65 ≤ c.toNat ∧ c.toNat ≤ 90 → classify c = .alpha (BitVec.ofNat 5 (c.toNat - 65))) ∧
    (50 ≤ c.toNat ∧ c.toNat ≤ 55 → classify c = .alpha (BitVec.ofNat 5 (c.toNat - 24))) ∧
    (classify c = .ws ↔ c.toNat ∈ [9, 10, 13, 32]) ∧
    (classify c = .pad ↔ c.toNat = 61) ∧
    (classify c = .other ↔ ¬ (65 ≤ c.toNat ∧ c.toNat ≤ 90) ∧ ¬ (50 ≤ c.toNat ∧ c.toNat ≤ 55) ∧
      c.toNat ∉ [9, 10, 13, 32] ∧ c.toNat ≠ 61)

/-- R101: the symbol-to-value map and the ROM are inverse to each other, and no other code is a
symbol. -/
def Obligations.ValueMapInvertsTheRom : Prop :=
  (∀ v : Sym, classify ((rom v).setWidth 16) = .alpha v) ∧
  (∀ (c : CharCode) (v : Sym), classify c = .alpha v →
    (rom v).setWidth 16 = c ∧
    ((65 ≤ c.toNat ∧ c.toNat ≤ 90 ∧ v.toNat = c.toNat - 65) ∨
     (50 ≤ c.toNat ∧ c.toNat ≤ 55 ∧ v.toNat = c.toNat - 24)))

/-- R110: what DEC_CHAR does, in every state and for every class of character. -/
def Obligations.DecCharResult : Prop :=
  ∀ (c : CharCode) (s : State),
    (s.dec.err = true → exec (.decChar c) s = .next s) ∧
    (s.dec.err = false → classify c = .ws → exec (.decChar c) s = .next s) ∧
    (s.dec.err = false → classify c = .pad →
      exec (.decChar c) s = .next { s with dec := { s.dec with pad := true } }) ∧
    (s.dec.err = false → classify c = .other →
      exec (.decChar c) s = .next { s with dec := { s.dec with err := true } }) ∧
    (s.dec.err = false → ∀ v : Sym, classify c = .alpha v →
      let w : Buf := BitVec.ofNat 40 (s.dec.buf.toNat * 2 ^ 5 ||| v.toNat)
      (s.dec.pad = true →
        exec (.decChar c) s = .next { s with dec := { s.dec with err := true } }) ∧
      (s.dec.pad = false → s.dec.cnt.val + 1 ≠ 8 →
        ∃ k : Fin 8, k.val = s.dec.cnt.val + 1 ∧
          exec (.decChar c) s = .next { s with dec := { s.dec with buf := w, cnt := k } }) ∧
      (s.dec.pad = false → s.dec.cnt.val + 1 = 8 →
        (s.decCap = .unbounded ∨ ∃ n, s.decCap = .bytes n ∧ s.dec.pend.length + 5 ≤ n) →
        exec (.decChar c) s = .next { s with dec := { s.dec with
          buf := 0, cnt := 0,
          pend := s.dec.pend ++ [w.extractLsb' 32 8, w.extractLsb' 24 8, w.extractLsb' 16 8,
            w.extractLsb' 8 8, w.extractLsb' 0 8] } }) ∧
      (s.dec.pad = false → s.dec.cnt.val + 1 = 8 →
        (∃ n, s.decCap = .bytes n ∧ n < s.dec.pend.length + 5) →
        exec (.decChar c) s = .next { s with
          fault := s.fault ||| 2#2,
          dec := { s.dec with buf := 0, cnt := 0, err := true } }))

/-- R111 with the table P of R106: what DEC_END does, in every state. A row is m, drop, nb. -/
def Obligations.DecEndResult : Prop :=
  ∀ s : State,
    ((s.dec.err = true ∨ s.dec.cnt.val ∈ [1, 3, 6]) →
      exec .decEnd s = .next { s with
        dec := { buf := 0, cnt := 0, pad := false, err := false, pend := [] },
        decOut := s.decOut ++ [.endInvalid] }) ∧
    (s.dec.err = false → ∀ row ∈ [(0, 0, 0), (2, 2, 1), (4, 4, 2), (5, 1, 3), (7, 3, 4)],
      s.dec.cnt.val = row.1 →
      let u := s.dec.buf.toNat / 2 ^ row.2.1
      let nb := row.2.2
      exec .decEnd s = .next { s with
        dec := { buf := 0, cnt := 0, pad := false, err := false, pend := [] },
        decOut := s.decOut ++ (s.dec.pend.map .byte ++
          (List.range nb).map (fun j => DecItem.byte (BitVec.ofNat 8 (u / 2 ^ (8 * (nb - 1 - j))))) ++
          [.endValid]) })

/-- The frame of the decoder's commands DEC_CHAR and DEC_END (R14, R110, R111): the encoder, its
queue, the parameter and the input are unchanged; DEC_CHAR leaves `dec_out` alone; DEC_END leaves
`fault` alone; DEC_CHAR writes no bit of `fault` but OVERFLOW. -/
def Obligations.DecoderCommandsFrame : Prop :=
  ∀ (i : Instr) (s t : State), ((∃ c, i = .decChar c) ∨ i = .decEnd) → exec i s = .next t →
    t.enc = s.enc ∧ t.encOut = s.encOut ∧ t.decCap = s.decCap ∧ t.input = s.input ∧
    s.decOut <+: t.decOut ∧ ((∃ c, i = .decChar c) → t.decOut = s.decOut) ∧
    (i = .decEnd → t.fault = s.fault) ∧ (t.fault = s.fault ∨ t.fault = s.fault ||| 2#2)

/-- R135: a completed group that does not fit raises OVERFLOW, is dropped and marks the message;
whatever follows, its result is the single item EndInvalid; with the capacity unbounded no command
raises OVERFLOW. -/
def Obligations.OverflowRule : Prop :=
  (∀ (c : CharCode) (v : Sym) (s : State) (n : Nat),
    s.decCap = .bytes n → classify c = .alpha v → s.dec.err = false → s.dec.pad = false →
    s.dec.cnt.val = 7 → n < s.dec.pend.length + 5 →
    ∃ t : State, exec (.decChar c) s = .next t ∧
      t = { s with fault := s.fault ||| 2#2, dec := { s.dec with buf := 0, cnt := 0, err := true } } ∧
      ∀ rest : List CharCode, runCommands (decStr rest) t =
        .next { t with dec := Dec.start, decOut := t.decOut ++ [.endInvalid] }) ∧
  (∀ (i : Instr) (s t : State), s.decCap = .unbounded → exec i s = .next t → t.fault = s.fault)

/-- R48: the widths each command moves, and with it R155's bound on the items of a DEC_END. -/
def Obligations.ItemsEachCommandEmits : Prop :=
  ∀ s : State,
    (∀ d, ∃ (t : State) (cs : List Byte), exec (.encByte d) s = .next t ∧
      t.encOut = s.encOut ++ cs.map .chr ∧ (cs.length = 0 ∨ cs.length = 8) ∧ t.decOut = s.decOut) ∧
    (∃ (t : State) (cs : List Byte), exec .encEnd s = .next t ∧
      t.encOut = s.encOut ++ (cs.map .chr ++ [.endMsg]) ∧ (cs.length = 0 ∨ cs.length = 8) ∧
      t.decOut = s.decOut) ∧
    (∀ c, ∃ t : State, exec (.decChar c) s = .next t ∧ t.decOut = s.decOut ∧ t.encOut = s.encOut) ∧
    (∃ t : State, exec .decEnd s = .next t ∧ t.encOut = s.encOut ∧
      (t.decOut = s.decOut ++ [.endInvalid] ∨
       ∃ bs : List Byte, t.decOut = s.decOut ++ (bs.map .byte ++ [.endValid]) ∧
         bs.length ≤ s.dec.pend.length + 4))

-- ---------------------------------------------------------------- the decoder's whole message

/-- R113: once `dec.err` is set, the rest of the message changes no field until DEC_END, and the
result is EndInvalid whatever follows. -/
def Obligations.MalformedMessageIgnoresTheRest : Prop :=
  ∀ (t : List CharCode) (s : State), s.dec.err = true →
    runCommands (t.map .decChar) s = .next s ∧
    runCommands (decStr t) s =
      .next { s with dec := Dec.start, decOut := s.decOut ++ [.endInvalid] }

/-- R112: no partial result. The characters of a message put nothing on `dec_out`, and its DEC_END
all the bytes and EndValid, or EndInvalid alone. From every state. -/
def Obligations.NoPartialResult : Prop :=
  ∀ (t : List CharCode) (s : State), ∃ u v : State,
    runCommands (t.map .decChar) s = .next u ∧ u.decOut = s.decOut ∧
    runCommands (decStr t) s = .next v ∧
    (v.decOut = s.decOut ++ [.endInvalid] ∨
     ∃ bs : List Byte, v.decOut = s.decOut ++ (bs.map .byte ++ [.endValid]) ∧ u.dec.pend <+: bs)

/-- R24, R25, R28 and the last invariant of R37: after the characters `t` of a message without
error, `dec.cnt` is their number of symbols modulo 8, `dec.buf` the partial group, the first symbol
highest, and `dec.pend` holds five bytes for each full group. -/
def Obligations.DecoderHoldsThePartialGroup : Prop :=
  ∀ (t : List CharCode) (s : State), s.dec = Dec.start →
    ∃ u : State, runCommands (t.map .decChar) s = .next u ∧
      (u.dec.err = false →
        u.dec.cnt.val = symbolCount t % 8 ∧
        u.dec.buf.toNat = ((alphaValues t).drop (8 * (symbolCount t / 8))).foldl
          (fun acc v => acc * 2 ^ 5 + v.toNat) 0 ∧
        u.dec.pend.length = 5 * (symbolCount t / 8) ∧
        (u.dec.pad = true ↔ ∃ c ∈ t, classify c = .pad))

/-- R114: the pad flag realises the trailing strip: with no overflow, the forward scan marks the
message exactly when a `=` or an OTHER character stands before the effective end. -/
def Obligations.PadFlagRealisesTheTrailingStrip : Prop :=
  ∀ (t : List CharCode) (s : State), s.dec = Dec.start →
    runOverflows (t.map .decChar) s = false →
    ∃ u : State, runCommands (t.map .decChar) s = .next u ∧
      (u.dec.err = true ↔
        ∃ (i : Nat) (c : CharCode), i < effectiveLength t ∧ t[i]? = some c ∧
          (classify c = .pad ∨ classify c = .other))

/-- R119: `DEC_STR t`, with no overflow, appends exactly the result of `Decode(t)` to `dec_out` and
changes nothing else. -/
def Obligations.StreamingDecodeIsTheReference : Prop :=
  ∀ (t : List CharCode) (s : State), s.dec = Dec.start →
    runOverflows (decStr t) s = false →
    runCommands (decStr t) s = .next { s with
      decOut := s.decOut ++ (match refDecode t with
        | .valid bytes => bytes.map .byte ++ [.endValid]
        | .invalid     => [.endInvalid]) }

/-- R119: no message overflows a capacity of five bytes for each full group of its symbols, nor an
unbounded one. -/
def Obligations.EnoughCapacityNeverOverflows : Prop :=
  ∀ (t : List CharCode) (s : State), s.dec = Dec.start →
    (s.decCap = .unbounded ∨ ∃ n, s.decCap = .bytes n ∧ 5 * (symbolCount t / 8) ≤ n) →
    runOverflows (decStr t) s = false

/-- R92: the round trip, of the reference functions and of the commands. -/
def Obligations.RoundTrip : Prop :=
  ∀ b : List Byte,
    refDecode ((refEncode b).map (BitVec.setWidth 16)) = .valid b ∧
    ∀ s : State, s.enc = Enc.start → s.dec = Dec.start →
      (s.decCap = .unbounded ∨ ∃ n, s.decCap = .bytes n ∧ 5 * (b.length / 5) ≤ n) →
      ∃ (t u : State) (chars : List Byte), runCommands (encMsg b) s = .next t ∧
        t.encOut = s.encOut ++ (chars.map .chr ++ [.endMsg]) ∧
        runCommands (decStr (chars.map (BitVec.setWidth 16))) t = .next u ∧
        u.decOut = s.decOut ++ (b.map .byte ++ [.endValid])

/-- R115: the rejection laws. -/
def Obligations.DecodeRejectionLaws : Prop :=
  (∀ (t : List CharCode) (c : CharCode), c ∈ t →
    ((97 ≤ c.toNat ∧ c.toNat ≤ 122) ∨ c.toNat ∈ [48, 49, 56, 57] ∨
     (33 ≤ c.toNat ∧ c.toNat ≤ 47) ∨ (58 ≤ c.toNat ∧ c.toNat ≤ 64 ∧ c.toNat ≠ 61) ∨
     (91 ≤ c.toNat ∧ c.toNat ≤ 96) ∨ (123 ≤ c.toNat ∧ c.toNat ≤ 126) ∨ classify c = .other) →
    refDecode t = .invalid) ∧
  (∀ t : List CharCode, symbolCount t % 8 ∈ [1, 3, 6] → refDecode t = .invalid) ∧
  (∀ (a b d : List CharCode) (p c : CharCode), classify p = .pad →
    (∃ v, classify c = .alpha v) → refDecode (a ++ p :: b ++ c :: d) = .invalid)

/-- R103, R116: a whitespace character anywhere in a text changes nothing of its result. -/
def Obligations.WhitespaceIsSkippedAnywhere : Prop :=
  ∀ (a b : List CharCode) (c : CharCode), classify c = .ws → refDecode (a ++ c :: b) = refDecode (a ++ b)

/-- R109: the number of `=` at the end of a text is not checked. -/
def Obligations.TrailingPaddingIsNotChecked : Prop :=
  ∀ (t : List CharCode) (n : Nat), refDecode (t ++ List.replicate n 61) = refDecode t

/-- R117: the length of a valid result, and that it never exceeds the source's buffer. -/
def Obligations.DecodeLengthLaw : Prop :=
  ∀ (t : List CharCode) (bytes : List Byte), refDecode t = .valid bytes →
    bytes.length = symbolCount t * 5 / 8 ∧ bytes.length ≤ effectiveLength t * 5 / 8

/-- R88, R118: messages without data. -/
def Obligations.EmptyMessages : Prop :=
  refEncode [] = [] ∧
  (∀ s : State, s.enc = Enc.start →
    runCommands (encMsg []) s = .next { s with encOut := s.encOut ++ [.endMsg] }) ∧
  (∀ t : List CharCode, (∀ c ∈ t, c.toNat ∈ [9, 10, 13, 32, 61]) →
    effectiveLength t = 0 ∧ symbolCount t = 0 ∧ refDecode t = .valid [] ∧
    ∀ s : State, s.dec = Dec.start →
      runCommands (decStr t) s = .next { s with decOut := s.decOut ++ [.endValid] })

/-- R108: the dropped low bits of a tail are not looked at: two partial groups that differ in them
alone give the same result at DEC_END, and "MZ======" decodes like "MY======". A row is m and the
number of dropped bits. -/
def Obligations.DroppedBitsAreNotChecked : Prop :=
  (∀ (s : State) (buf : Buf), ∀ row ∈ [(2, 2), (4, 4), (5, 1), (7, 3)],
    s.dec.cnt.val = row.1 → buf.toNat / 2 ^ row.2 = s.dec.buf.toNat / 2 ^ row.2 →
    exec .decEnd { s with dec := { s.dec with buf := buf } } = exec .decEnd s) ∧
  refDecode (0x4D#16 :: 0x5A#16 :: List.replicate 6 0x3D#16) = .valid [0x66] ∧
  refDecode (0x4D#16 :: 0x59#16 :: List.replicate 6 0x3D#16) = .valid [0x66]

-- ---------------------------------------------------------------- the whole block

/-- The invariants of R37, and the shape of the encoder's queue, hold after reset, at every
capacity. -/
def Obligations.InvariantsHoldAtReset : Prop :=
  ∀ cap : Capacity, Inv (State.resetWith cap) ∧ EncQueueOk (State.resetWith cap)

/-- The invariants of R37 are kept by every step, from every state that meets them: legal and
illegal words, the host's takes, reset and the idle step. -/
def Obligations.StepKeepsTheInvariants : Prop :=
  ∀ s t : State, Inv s → step s = .next t → Inv t

/-- R30, R133, R140: each fault bit is sticky; no action of the host but reset clears one. -/
def Obligations.FaultBitsAreSticky : Prop :=
  ∀ (s t : State) (k : FaultKind), step s = .next t → (∀ rest, s.input ≠ .rst :: rest) →
    faultIs k s = true → faultIs k t = true

/-- R137: one command raises at most one fault, and which. -/
def Obligations.OneCommandRaisesAtMostOneFault : Prop :=
  ∀ (s t : State) (w : Word) (rest : List HostEvent), s.input = .cmd w :: rest → step s = .next t →
    (wordWellFormed w = false → t.fault = s.fault ||| 1#2) ∧
    (∀ c, decode w = .legal (.decChar c) →
      t.fault = (if overflowsAt (.decChar c) s then s.fault ||| 2#2 else s.fault)) ∧
    (∀ i, decode w = .legal i → (∀ c, i ≠ .decChar c) → t.fault = s.fault)

/-- Who writes each field (the "only ... write it" of R21, R22, R24 to R28, R30, R31): a step that
changes a field runs a command that the rules name for it, or is reset or a take. -/
def Obligations.OnlyTheNamedEventsWriteAField : Prop :=
  ∀ (s t : State) (e : HostEvent) (rest : List HostEvent), s.input = e :: rest → step s = .next t →
    t.input = rest ∧ t.decCap = s.decCap ∧
    (t.enc ≠ s.enc → e = .rst ∨ ∃ w i, e = .cmd w ∧ decode w = .legal i ∧ i.unit = .enc) ∧
    (t.dec ≠ s.dec → e = .rst ∨ ∃ w i, e = .cmd w ∧ decode w = .legal i ∧ i.unit = .dec) ∧
    (t.fault ≠ s.fault → e = .rst ∨ ∃ w, e = .cmd w ∧
      (wordWellFormed w = false ∨ ∃ c, decode w = .legal (.decChar c))) ∧
    (t.encOut ≠ s.encOut → e = .rst ∨ e = .takeEnc ∨
      ∃ w i, e = .cmd w ∧ decode w = .legal i ∧ i.unit = .enc) ∧
    (t.decOut ≠ s.decOut → e = .rst ∨ e = .takeDec ∨ ∃ w, e = .cmd w ∧ decode w = .legal .decEnd)

/-- R14: a command to one unit neither reads nor writes the other unit: it leaves the other unit and
its queue as they were, and from two states that agree on its own unit (for the decoder also on the
capacity) it leaves its unit the same, emits the same items and writes `fault` alike: an encoder
command not at all, a decoder command by setting the same bits. -/
def Obligations.UnitsAreIndependent : Prop :=
  ∀ (i : Instr) (s s' t t' : State), exec i s = .next t → exec i s' = .next t' →
    (i.unit = .enc →
      t.dec = s.dec ∧ t.decOut = s.decOut ∧ t.fault = s.fault ∧ t'.fault = s'.fault ∧
      (s.enc = s'.enc → t.enc = t'.enc ∧
        ∃ items, t.encOut = s.encOut ++ items ∧ t'.encOut = s'.encOut ++ items)) ∧
    (i.unit = .dec →
      t.enc = s.enc ∧ t.encOut = s.encOut ∧
      (s.dec = s'.dec → s.decCap = s'.decCap → t.dec = t'.dec ∧
        (∃ bits : BitVec 2, t.fault = s.fault ||| bits ∧ t'.fault = s'.fault ||| bits) ∧
        ∃ items, t.decOut = s.decOut ++ items ∧ t'.decOut = s'.decOut ++ items))

/-- R50: interleaving the commands of the two units in any order gives the same state as running
the encoder's commands and then the decoder's. -/
def Obligations.InterleavingChangesNothing : Prop :=
  ∀ (p : List Instr) (s : State),
    runCommands p s =
      runCommands (p.filter (fun i => decide (i.unit = .enc)) ++
        p.filter (fun i => decide (i.unit = .dec))) s

/-- R49, R157: presenting the words of a list of commands, and stepping once for each, gives what
applying the commands in order gives. -/
def Obligations.SteppingAppliesTheCommandsInOrder : Prop :=
  ∀ (p : List Instr) (s : State),
    Host.Core.run core p.length (presentWords (programWords p) s) = runCommands p s

/-- R66, R91, R119 and R157 together: any closed list of commands, the two units' messages
interleaved in any way, delivers for every encode message the reference's text and for every decode
message the reference's result, in order, and changes nothing else; so its observation from reset
is the list of the reference's results. -/
def Obligations.ClosedCommandListsDeliverEveryMessage : Prop :=
  ∀ p : List Instr, closedProgram p = true →
    (∀ s : State, s.enc = Enc.start → s.dec = Dec.start → runOverflows p s = false →
      runCommands p s = .next { s with
        encOut := s.encOut ++ (encInputs [] p).flatMap (fun b => (refEncode b).map .chr ++ [.endMsg]),
        decOut := s.decOut ++ (decInputs [] p).flatMap (fun t => resultItems (refDecode t)) }) ∧
    (∀ cap : Capacity, runOverflows p (State.resetWith cap) = false →
      ∃ t : State, runCommands p (State.resetWith cap) = .next t ∧
        observe t = { encoded := (encInputs [] p).map refEncode,
                      decoded := (decInputs [] p).map refDecode, fault := 0 })

-- ---------------------------------------------------------------- the host's side

/-- R70: a character wider than 16 bits is presented as a code that classifies OTHER, every other
one as its full code. That the code is 0xFFFF is the model's choice (assumption log 13). -/
def Obligations.WideCharactersClassifyOther : Prop :=
  ∀ code : Nat, (0xFFFF < code → classify (presentChar code) = .other) ∧
    (code ≤ 0xFFFF → (presentChar code).toNat = code)

/-- The two range checks that the assembler puts an operand's value through, `encByteOf` and
`decCharOf` (R71): a value in range is taken as it is, one out of range refused. Of whole lines
speaks `NumberOperandLines`. -/
def Obligations.OperandRangeChecks : Prop :=
  ∀ v : Nat,
    (v ≤ 255 → encByteOf v = .ok (.encByte (BitVec.ofNat 8 v))) ∧ (255 < v → encByteOf v = .error .range) ∧
    (v ≤ 65535 → decCharOf v = .ok (.decChar (BitVec.ofNat 16 v))) ∧
    (65535 < v → decCharOf v = .error .range)

/-- R71: a line ENC_BYTE, DEC_CHAR or ENC_MSG with one number operand, decimal or hexadecimal, of
any length, assembles to the command of the number's value when it is in range, and is refused as
out of range when it is not: never wrapped. The codes are ASCII's (assumption log 10); one blank
stands before the operand, and hexadecimal letters in either case are assumption log 12's choice. -/
def Obligations.NumberOperandLines : Prop :=
  ∀ row ∈ [(10, []), (16, [48, 120])], ∀ ds : List Nat, ds ≠ [] →
    (∀ c ∈ ds, (48 ≤ c ∧ c ≤ 57) ∨ (row.1 = 16 ∧ ((65 ≤ c ∧ c ≤ 70) ∨ (97 ≤ c ∧ c ≤ 102)))) →
    let value := ds.foldl (fun acc c =>
      acc * row.1 + (if c ≤ 57 then c - 48 else if c ≤ 70 then c - 55 else c - 87)) 0
    let operand := 32 :: (row.2 ++ ds)
    assembleLine (codesOf "ENC_BYTE" ++ operand) =
      (if value ≤ 255 then .ok [.encByte (BitVec.ofNat 8 value)] else .error .range) ∧
    assembleLine (codesOf "DEC_CHAR" ++ operand) =
      (if value ≤ 65535 then .ok [.decChar (BitVec.ofNat 16 value)] else .error .range) ∧
    assembleLine (codesOf "ENC_MSG" ++ operand) =
      (if value ≤ 255 then .ok [.encByte (BitVec.ofNat 8 value), .encEnd] else .error .range)

/-- R72: a DEC_STR line whose string holds no quote and no backslash, so no escape, assembles to one
DEC_CHAR per character and a DEC_END. Strings with escapes are left out. That a `;` in the string
is a plain character, where R71 lets `;` start a comment, is the model's choice (DESIGN CHOICE,
assumption log 12). -/
def Obligations.DecStrLineExpands : Prop :=
  ∀ cs : List Nat, (∀ c ∈ cs, c ≤ 65535 ∧ c ≠ 34 ∧ c ≠ 92) →
    assembleLine (codesOf "DEC_STR" ++ [32, 34] ++ cs ++ [34]) =
      .ok (cs.map (fun c => Instr.decChar (BitVec.ofNat 16 c)) ++ [.decEnd])
end

