-- ==== Sys2Proof/Laws/Operands.lean ====
section
/-!
SUPPORT. The small lemmas of the operand functions: what shifting a byte or a symbol into a buffer
does to its value, and how many symbols and bytes a slicing gives.
-/

namespace Sys2Proof.Machine

/-- A byte shifted in, as arithmetic on the buffer's value (R84). -/
theorem pushByte_toNat (buf : Buf) (d : Byte) :
    (pushByte buf d).toNat = (buf.toNat * 2 ^ 8 + d.toNat) % 2 ^ 40 := by
  have hd : d.toNat < 2 ^ 8 := d.isLt
  have hm : buf.toNat * 2 ^ 8 % 2 ^ 40 = 2 ^ 8 * (buf.toNat % 2 ^ 32) := by omega
  have hor := Nat.two_pow_add_eq_or_of_lt hd (buf.toNat % 2 ^ 32)
  have hval : (pushByte buf d).toNat = buf.toNat * 2 ^ 8 % 2 ^ 40 ||| d.toNat := by
    simp [pushByte, Nat.shiftLeft_eq, Nat.mod_eq_of_lt (show d.toNat < 1099511627776 by omega)]
  rw [hval, hm, ← hor]
  omega

/-- A symbol value shifted in, as arithmetic on the buffer's value (R110). -/
theorem pushSym_toNat (buf : Buf) (v : Sym) :
    (pushSym buf v).toNat = (buf.toNat * 2 ^ 5 + v.toNat) % 2 ^ 40 := by
  have hv : v.toNat < 2 ^ 5 := v.isLt
  have hm : buf.toNat * 2 ^ 5 % 2 ^ 40 = 2 ^ 5 * (buf.toNat % 2 ^ 35) := by omega
  have hor := Nat.two_pow_add_eq_or_of_lt hv (buf.toNat % 2 ^ 35)
  have hval : (pushSym buf v).toNat = buf.toNat * 2 ^ 5 % 2 ^ 40 ||| v.toNat := by
    simp [pushSym, Nat.shiftLeft_eq, Nat.mod_eq_of_lt (show v.toNat < 1099511627776 by omega)]
  rw [hval, hm, ← hor]
  omega

@[simp] theorem symbolsOf_length (n : Nat) (v : Buf) : (symbolsOf n v).length = n := by
  induction n with
  | zero => rfl
  | succ n ih => simp [symbolsOf, ih]

@[simp] theorem bytesOf_length (n : Nat) (u : Buf) : (bytesOf n u).length = n := by
  induction n with
  | zero => rfl
  | succ n ih => simp [bytesOf, ih]

/-- A full group is eight characters (R81). -/
@[simp] theorem groupChars_length (w : Buf) : (groupChars w).length = 8 := by simp [groupChars]

/-- The tail of a partial group is no character or eight (R82). -/
theorem tailChars_length (r : Fin 5) (w : Buf) : (tailChars r w).length = if r = 0 then 0 else 8 := by
  simp only [tailChars, List.length_append, List.length_map, symbolsOf_length, List.length_replicate]
  revert r; decide

/-- A tail row of the decoder drops what is no whole byte of its `5 * m` bits (R106). -/
theorem decTail_drop {m : Fin 8} {p : DecTail} (h : decTail m = some p) :
    p.drop + 8 * p.nb = 5 * m.val ∧ p.nb ≤ 4 := by
  revert h; revert m
  intro m h
  fin_cases m <;> simp [decTail] at h <;> subst h <;> simp

/-- The counts without a tail row are 1, 3 and 6 (R106). -/
theorem decTail_eq_none (m : Fin 8) : decTail m = none ↔ m.val ∈ [1, 3, 6] := by
  revert m; decide

/-- The tail bytes of a valid count, and their number (R106). -/
theorem tailBytes_length {m : Fin 8} {w : Buf} {bs : List Byte} (h : tailBytes m w = some bs) :
    bs.length ≤ 4 := by
  unfold tailBytes at h
  split at h
  · cases h
  · next p hp => cases h; simpa using (decTail_drop hp).2

/-- Whether a number of bytes fits, said without the function (R135). -/
theorem fits_iff (cap : Capacity) (n : Nat) :
    fits cap n = true ↔ cap = .unbounded ∨ ∃ c, cap = .bytes c ∧ n ≤ c := by
  cases cap <;> simp [fits]

/-- Fewer bytes fit where more do. -/
theorem fits_mono {cap : Capacity} {m n : Nat} (h : m ≤ n) (hn : fits cap n = true) : fits cap m = true := by
  cases cap with
  | unbounded => rfl
  | bytes c => simp [fits] at *; omega

end Sys2Proof.Machine
end

