-- ==== Sys2Proof/Laws/State.lean ====
section
/-!
SUPPORT. One lemma per field per named update of the state, true by rfl, so that no later proof
unfolds a record update; and the same for the fields of the reset state.
-/

namespace Sys2Proof.Machine

@[simp] theorem raiseFault_enc (k : FaultKind) (s : State) : (raiseFault k s).enc = s.enc := rfl
@[simp] theorem raiseFault_dec (k : FaultKind) (s : State) : (raiseFault k s).dec = s.dec := rfl
@[simp] theorem raiseFault_fault (k : FaultKind) (s : State) : (raiseFault k s).fault = s.fault ||| faultMask k := rfl
@[simp] theorem raiseFault_encOut (k : FaultKind) (s : State) : (raiseFault k s).encOut = s.encOut := rfl
@[simp] theorem raiseFault_decOut (k : FaultKind) (s : State) : (raiseFault k s).decOut = s.decOut := rfl
@[simp] theorem raiseFault_decCap (k : FaultKind) (s : State) : (raiseFault k s).decCap = s.decCap := rfl
@[simp] theorem raiseFault_input (k : FaultKind) (s : State) : (raiseFault k s).input = s.input := rfl

@[simp] theorem emitEnc_enc (items : List EncItem) (s : State) : (emitEnc items s).enc = s.enc := rfl
@[simp] theorem emitEnc_dec (items : List EncItem) (s : State) : (emitEnc items s).dec = s.dec := rfl
@[simp] theorem emitEnc_fault (items : List EncItem) (s : State) : (emitEnc items s).fault = s.fault := rfl
@[simp] theorem emitEnc_encOut (items : List EncItem) (s : State) : (emitEnc items s).encOut = s.encOut ++ items := rfl
@[simp] theorem emitEnc_decOut (items : List EncItem) (s : State) : (emitEnc items s).decOut = s.decOut := rfl
@[simp] theorem emitEnc_decCap (items : List EncItem) (s : State) : (emitEnc items s).decCap = s.decCap := rfl
@[simp] theorem emitEnc_input (items : List EncItem) (s : State) : (emitEnc items s).input = s.input := rfl

@[simp] theorem emitDec_enc (items : List DecItem) (s : State) : (emitDec items s).enc = s.enc := rfl
@[simp] theorem emitDec_dec (items : List DecItem) (s : State) : (emitDec items s).dec = s.dec := rfl
@[simp] theorem emitDec_fault (items : List DecItem) (s : State) : (emitDec items s).fault = s.fault := rfl
@[simp] theorem emitDec_encOut (items : List DecItem) (s : State) : (emitDec items s).encOut = s.encOut := rfl
@[simp] theorem emitDec_decOut (items : List DecItem) (s : State) : (emitDec items s).decOut = s.decOut ++ items := rfl
@[simp] theorem emitDec_decCap (items : List DecItem) (s : State) : (emitDec items s).decCap = s.decCap := rfl
@[simp] theorem emitDec_input (items : List DecItem) (s : State) : (emitDec items s).input = s.input := rfl

@[simp] theorem startEnc_enc (s : State) : (startEnc s).enc = Enc.start := rfl
@[simp] theorem startEnc_dec (s : State) : (startEnc s).dec = s.dec := rfl
@[simp] theorem startEnc_fault (s : State) : (startEnc s).fault = s.fault := rfl
@[simp] theorem startEnc_encOut (s : State) : (startEnc s).encOut = s.encOut := rfl
@[simp] theorem startEnc_decOut (s : State) : (startEnc s).decOut = s.decOut := rfl
@[simp] theorem startEnc_decCap (s : State) : (startEnc s).decCap = s.decCap := rfl
@[simp] theorem startEnc_input (s : State) : (startEnc s).input = s.input := rfl

@[simp] theorem startDec_enc (s : State) : (startDec s).enc = s.enc := rfl
@[simp] theorem startDec_dec (s : State) : (startDec s).dec = Dec.start := rfl
@[simp] theorem startDec_fault (s : State) : (startDec s).fault = s.fault := rfl
@[simp] theorem startDec_encOut (s : State) : (startDec s).encOut = s.encOut := rfl
@[simp] theorem startDec_decOut (s : State) : (startDec s).decOut = s.decOut := rfl
@[simp] theorem startDec_decCap (s : State) : (startDec s).decCap = s.decCap := rfl
@[simp] theorem startDec_input (s : State) : (startDec s).input = s.input := rfl

@[simp] theorem holdByte_enc (w : Buf) (k : Nat) (s : State) : (holdByte w k s).enc = { buf := w, cnt := Fin.ofNat 5 k } := rfl
@[simp] theorem holdByte_dec (w : Buf) (k : Nat) (s : State) : (holdByte w k s).dec = s.dec := rfl
@[simp] theorem holdByte_fault (w : Buf) (k : Nat) (s : State) : (holdByte w k s).fault = s.fault := rfl
@[simp] theorem holdByte_encOut (w : Buf) (k : Nat) (s : State) : (holdByte w k s).encOut = s.encOut := rfl
@[simp] theorem holdByte_decOut (w : Buf) (k : Nat) (s : State) : (holdByte w k s).decOut = s.decOut := rfl
@[simp] theorem holdByte_decCap (w : Buf) (k : Nat) (s : State) : (holdByte w k s).decCap = s.decCap := rfl
@[simp] theorem holdByte_input (w : Buf) (k : Nat) (s : State) : (holdByte w k s).input = s.input := rfl

@[simp] theorem markPad_enc (s : State) : (markPad s).enc = s.enc := rfl
@[simp] theorem markPad_dec (s : State) : (markPad s).dec = { s.dec with pad := true } := rfl
@[simp] theorem markPad_fault (s : State) : (markPad s).fault = s.fault := rfl
@[simp] theorem markPad_encOut (s : State) : (markPad s).encOut = s.encOut := rfl
@[simp] theorem markPad_decOut (s : State) : (markPad s).decOut = s.decOut := rfl
@[simp] theorem markPad_decCap (s : State) : (markPad s).decCap = s.decCap := rfl
@[simp] theorem markPad_input (s : State) : (markPad s).input = s.input := rfl

@[simp] theorem markErr_enc (s : State) : (markErr s).enc = s.enc := rfl
@[simp] theorem markErr_dec (s : State) : (markErr s).dec = { s.dec with err := true } := rfl
@[simp] theorem markErr_fault (s : State) : (markErr s).fault = s.fault := rfl
@[simp] theorem markErr_encOut (s : State) : (markErr s).encOut = s.encOut := rfl
@[simp] theorem markErr_decOut (s : State) : (markErr s).decOut = s.decOut := rfl
@[simp] theorem markErr_decCap (s : State) : (markErr s).decCap = s.decCap := rfl
@[simp] theorem markErr_input (s : State) : (markErr s).input = s.input := rfl

@[simp] theorem takeEncItem_enc (s : State) : (takeEncItem s).enc = s.enc := rfl
@[simp] theorem takeEncItem_dec (s : State) : (takeEncItem s).dec = s.dec := rfl
@[simp] theorem takeEncItem_fault (s : State) : (takeEncItem s).fault = s.fault := rfl
@[simp] theorem takeEncItem_encOut (s : State) : (takeEncItem s).encOut = s.encOut.tail := rfl
@[simp] theorem takeEncItem_decOut (s : State) : (takeEncItem s).decOut = s.decOut := rfl
@[simp] theorem takeEncItem_decCap (s : State) : (takeEncItem s).decCap = s.decCap := rfl
@[simp] theorem takeEncItem_input (s : State) : (takeEncItem s).input = s.input := rfl

@[simp] theorem takeDecItem_enc (s : State) : (takeDecItem s).enc = s.enc := rfl
@[simp] theorem takeDecItem_dec (s : State) : (takeDecItem s).dec = s.dec := rfl
@[simp] theorem takeDecItem_fault (s : State) : (takeDecItem s).fault = s.fault := rfl
@[simp] theorem takeDecItem_encOut (s : State) : (takeDecItem s).encOut = s.encOut := rfl
@[simp] theorem takeDecItem_decOut (s : State) : (takeDecItem s).decOut = s.decOut.tail := rfl
@[simp] theorem takeDecItem_decCap (s : State) : (takeDecItem s).decCap = s.decCap := rfl
@[simp] theorem takeDecItem_input (s : State) : (takeDecItem s).input = s.input := rfl

@[simp] theorem resetBlock_enc (s : State) : (resetBlock s).enc = Enc.start := rfl
@[simp] theorem resetBlock_dec (s : State) : (resetBlock s).dec = Dec.start := rfl
@[simp] theorem resetBlock_fault (s : State) : (resetBlock s).fault = 0 := rfl
@[simp] theorem resetBlock_encOut (s : State) : (resetBlock s).encOut = [] := rfl
@[simp] theorem resetBlock_decOut (s : State) : (resetBlock s).decOut = [] := rfl
@[simp] theorem resetBlock_decCap (s : State) : (resetBlock s).decCap = s.decCap := rfl
@[simp] theorem resetBlock_input (s : State) : (resetBlock s).input = s.input := rfl

@[simp] theorem resetWith_enc (cap : Capacity) : (State.resetWith cap).enc = Enc.start := rfl
@[simp] theorem resetWith_dec (cap : Capacity) : (State.resetWith cap).dec = Dec.start := rfl
@[simp] theorem resetWith_fault (cap : Capacity) : (State.resetWith cap).fault = 0 := rfl
@[simp] theorem resetWith_encOut (cap : Capacity) : (State.resetWith cap).encOut = [] := rfl
@[simp] theorem resetWith_decOut (cap : Capacity) : (State.resetWith cap).decOut = [] := rfl
@[simp] theorem resetWith_decCap (cap : Capacity) : (State.resetWith cap).decCap = cap := rfl
@[simp] theorem resetWith_input (cap : Capacity) : (State.resetWith cap).input = [] := rfl

@[simp] theorem encStart_buf : Enc.start.buf = 0 := rfl
@[simp] theorem encStart_cnt : Enc.start.cnt = 0 := rfl
@[simp] theorem decStart_buf : Dec.start.buf = 0 := rfl
@[simp] theorem decStart_cnt : Dec.start.cnt = 0 := rfl
@[simp] theorem decStart_pad : Dec.start.pad = false := rfl
@[simp] theorem decStart_err : Dec.start.err = false := rfl
@[simp] theorem decStart_pend : Dec.start.pend = [] := rfl

end Sys2Proof.Machine
end

