-- ==== Sys2Proof/Laws/Ops.lean ====
section
/-!
SUPPORT. One lemma for each shared operation, and for each meaning that branches, that says once
everything it can do; later proofs cite these and do not unfold.
-/

namespace Sys2Proof.Machine

/-- A completed group fits and joins the pending bytes, or overflows (R110, R135). -/
theorem finishGroup_cases (w : Buf) (s : State) :
    (fits s.decCap (s.dec.pend.length + 5) = true ∧
      finishGroup w s =
        { s with dec := { s.dec with buf := 0, cnt := 0, pend := s.dec.pend ++ bytesOf 5 w } }) ∨
    (fits s.decCap (s.dec.pend.length + 5) = false ∧
      finishGroup w s =
        { s with fault := s.fault ||| 2#2, dec := { s.dec with buf := 0, cnt := 0, err := true } }) := by
  unfold finishGroup
  split
  · next h => exact .inl ⟨h, rfl⟩
  · next h => exact .inr ⟨by simpa using h, rfl⟩

/-- An accepted symbol joins the partial group, or completes it (R110). -/
theorem acceptSymbol_cases (v : Sym) (s : State) :
    (s.dec.cnt.val = 7 ∧ acceptSymbol v s = finishGroup (pushSym s.dec.buf v) s) ∨
    (∃ k : Fin 8, k.val = s.dec.cnt.val + 1 ∧
      acceptSymbol v s = { s with dec := { s.dec with buf := pushSym s.dec.buf v, cnt := k } }) := by
  unfold acceptSymbol
  split
  · next h => exact .inl ⟨by omega, rfl⟩
  · next h =>
    refine .inr ⟨Fin.ofNat 8 (s.dec.cnt.val + 1), ?_, rfl⟩
    have := s.dec.cnt.isLt
    simp only [Fin.ofNat]
    omega

/-- ENC_BYTE joins the partial group, or completes it (R84). -/
theorem execEncByte_cases (d : Byte) (s : State) :
    (s.enc.cnt.val = 4 ∧ execEncByte d s =
      .next { s with enc := Enc.start,
                     encOut := s.encOut ++ (groupChars (pushByte s.enc.buf d)).map .chr }) ∨
    (∃ k : Fin 5, k.val = s.enc.cnt.val + 1 ∧ execEncByte d s =
      .next { s with enc := { buf := pushByte s.enc.buf d, cnt := k } }) := by
  simp only [execEncByte]
  split
  · next h => exact .inl ⟨by omega, rfl⟩
  · next h =>
    refine .inr ⟨Fin.ofNat 5 (s.enc.cnt.val + 1), ?_, rfl⟩
    have := s.enc.cnt.isLt
    simp only [Fin.ofNat]
    omega

/-- DEC_CHAR leaves the state, sets a flag of the message, or accepts a symbol (R110). -/
theorem execDecChar_cases (c : CharCode) (s : State) :
    (execDecChar c s = .next s ∧ (s.dec.err = true ∨ classify c = .ws)) ∨
    (execDecChar c s = .next (markPad s) ∧ s.dec.err = false ∧ classify c = .pad) ∨
    (execDecChar c s = .next (markErr s) ∧ s.dec.err = false ∧
      (classify c = .other ∨ (s.dec.pad = true ∧ ∃ v, classify c = .alpha v))) ∨
    (∃ v, execDecChar c s = .next (acceptSymbol v s) ∧ s.dec.err = false ∧ s.dec.pad = false ∧
      classify c = .alpha v) := by
  unfold execDecChar
  split
  · next h => exact .inl ⟨rfl, .inl h⟩
  · next h =>
    have h' : s.dec.err = false := by simpa using h
    split
    · next v hv =>
      split
      · next hp => exact .inr (.inr (.inl ⟨rfl, h', .inr ⟨hp, v, hv⟩⟩))
      · next hp => exact .inr (.inr (.inr ⟨v, rfl, h', by simpa using hp, hv⟩))
    · next hw => exact .inl ⟨rfl, .inr hw⟩
    · next hw => exact .inr (.inl ⟨rfl, h', hw⟩)
    · next hw => exact .inr (.inr (.inl ⟨rfl, h', .inl hw⟩))

/-- The result of a message: invalid on an error or a bad count, else pending and tail bytes
(R111). -/
theorem messageResult_cases (d : Dec) :
    (messageResult d = .invalid ∧ (d.err = true ∨ tailBytes d.cnt d.buf = none)) ∨
    (∃ tail, messageResult d = .valid (d.pend ++ tail) ∧ d.err = false ∧
      tailBytes d.cnt d.buf = some tail) := by
  unfold messageResult
  split
  · next h => exact .inl ⟨rfl, .inl h⟩
  · next h =>
    split
    · next ht => exact .inl ⟨rfl, .inr ht⟩
    · next tail ht => exact .inr ⟨tail, rfl, by simpa using h, ht⟩

/-- An accepted word runs its command, or raises ILLEGAL (R134). -/
theorem acceptWord_cases (w : Word) (s : State) :
    (∃ i, decode w = .legal i ∧ acceptWord w s = exec i s) ∨
    (∃ why, decode w = .illegal why ∧ acceptWord w s = .next { s with fault := s.fault ||| 1#2 }) := by
  unfold acceptWord
  split
  · next i h => exact .inl ⟨i, h, rfl⟩
  · next why h => exact .inr ⟨why, h, rfl⟩

/-- A step with an action to come applies it; with none it is idle. -/
theorem step_cases (s : State) :
    (s.input = [] ∧ step s = .next s) ∨
    (∃ e rest, s.input = e :: rest ∧ step s = applyEvent e { s with input := rest }) := by
  unfold step
  split
  · next h => exact .inl ⟨h, rfl⟩
  · next e rest h => exact .inr ⟨e, rest, h, rfl⟩

end Sys2Proof.Machine
end

