-- ==== Sys2Proof/Laws/PerInstr.lean ====
section
/-!
SUPPORT. A family of statements over the constructors of Instr: the encoding of a command has its
operation code in bits 19..16, bit 19 selecting the unit (R61), and stands in its row of the opcode
table (R62 to R65).
-/

namespace Sys2Proof.Laws.EncodedWord

/-- The operation code the map of R61 gives a command. -/
def opcodeOf : Instr → BitVec 4
  | .encByte _ => 0x1
  | .encEnd    => 0x2
  | .decChar _ => 0x9
  | .decEnd    => 0xA

/-- The encoding carries the command's operation code, its top bit is set exactly for the decoder's
commands, and the word is legal. -/
def Statement (i : Instr) : Prop :=
  opField (encode i) = opcodeOf i ∧
  ((encode i).getLsbD 19 = true ↔ i.unit = .dec) ∧
  wordWellFormed (encode i) = true

theorem encByte (d : Byte) : Statement (.encByte d) := by
  revert d; unfold Statement; decide

theorem encEnd : Statement .encEnd := by unfold Statement; decide

theorem decChar (c : CharCode) : Statement (.decChar c) := by
  have hbit : ∀ i, (encode (.decChar c)).getLsbD i =
      if i < 16 then c.getLsbD i else (0x9#4).getLsbD (i - 16) :=
    fun i => (BitVec.getLsbD_append (x := 0x9#4) (y := c)).trans (by cases h : decide (i < 16) <;> simp_all)
  have hrow : encode (.decChar c) &&& 0xF0000#20 = 0x90000#20 := by
    apply BitVec.eq_of_getLsbD_eq
    intro i hi
    rw [BitVec.getLsbD_and, hbit]
    rcases Nat.lt_or_ge i 16 with h | h
    · have h0 : (0xF0000#20).getLsbD i = false := by interval_cases i <;> rfl
      have h1 : (0x90000#20).getLsbD i = false := by interval_cases i <;> rfl
      simp only [h0, h1, Bool.and_false]
    · interval_cases i <;> rfl
  refine ⟨?_, ?_, ?_⟩
  · simp only [opField, encode, opcodeOf, BitVec.extractLsb'_append_eq_of_le (Nat.le_refl 16)]
    decide
  · rw [hbit, if_neg (by decide)]; simp [Instr.unit]
  · simp [wordWellFormed, opcodeTable, OpcodeRow.covers, hrow]

theorem decEnd : Statement .decEnd := by unfold Statement; decide

end Sys2Proof.Laws.EncodedWord
end

