-- ==== Sys2Proof/Tests/Slice0.lean ====
section
/-!
SUPPORT. The implementer's own tests. Expected values are the spec's: S<n>, E<n>, D<n>, W<n>, P<n>
are the vectors of 95_test_vectors.md, R<n> the rules. After them, for each obligation with
hypotheses, a named witness that meets them all, one for each clause at a boundary of its range.
-/

namespace Sys2Proof.Tests

open Sys2Proof Sys2Proof.Machine Sys2Proof.Safety

/-- The next state of an outcome, if it is one. -/
def after : Host.Outcome State Fault Refusal → Option State
  | .next t    => some t
  | .fault _   => none
  | .refused _ => none

/-- The reset state with this encoder unit. -/
def encAt (cnt : Fin 5) (buf : Buf) : State := { State.reset with enc := { buf := buf, cnt := cnt } }

/-- The reset state with this partial group in the decoder unit. -/
def decAt (cnt : Fin 8) (buf : Buf) : State :=
  { State.reset with dec := { Dec.start with buf := buf, cnt := cnt } }

/-- The same after a `=`. -/
def decPadAt (cnt : Fin 8) (buf : Buf) : State := markPad (decAt cnt buf)

/-- The bytes `fooba`. -/
def fooba : List Byte := [0x66, 0x6F, 0x6F, 0x62, 0x61]

/-- The state before D58: a capacity of five bytes, all of them taken, seven symbols held. -/
def fullAt : State :=
  { State.resetWith (.bytes 5) with dec := { Dec.start with cnt := 7, pend := fooba } }

/-- The character codes of a text. -/
def chars (t : String) : List CharCode := t.toList.map (fun c => BitVec.ofNat 16 c.toNat)

/-- The character codes of an encoded text. -/
def bytes (t : String) : List Byte := t.toList.map (fun c => BitVec.ofNat 8 c.toNat)

-- ---------------------------------------------------------------- well-formedness, decoding

/-- W1, W7: no row has this operation code. -/
theorem test_wellFormed_refuses_opcode :
    wordWellFormed 0x00000#20 = false ∧ wordWellFormed 0x8004D#20 = false := by decide

/-- W2, W3: an ENC_BYTE word with a high operand bit. -/
theorem test_wellFormed_refuses_encByte_high :
    wordWellFormed 0x10166#20 = false ∧ wordWellFormed 0x1FF00#20 = false := by decide

/-- W5: an ENC_END word with an operand. -/
theorem test_wellFormed_refuses_encEnd_operand : wordWellFormed 0x20001#20 = false := by decide

/-- W9: a DEC_END word with an operand. -/
theorem test_wellFormed_refuses_decEnd_operand : wordWellFormed 0xA8000#20 = false := by decide

/-- No word is of two rows of the table: two patterns differ where both masks look. -/
theorem test_table_rows_disjoint :
    opcodeTable.Pairwise (fun a b => (a.pattern ^^^ b.pattern) &&& a.mask &&& b.mask ≠ 0) := by decide

/-- R62, the word of ENC_BYTE 0xFF bit by bit: 0001 00000000 11111111 (W4). -/
theorem test_decode_encByte : decode 0b00010000000011111111#20 = .legal (.encByte 0xFF) := by decide

/-- R63: 0010 and sixteen zeros. -/
theorem test_decode_encEnd : decode 0b00100000000000000000#20 = .legal .encEnd := by decide

/-- R64, the word of DEC_CHAR 'M': 1001 0000000001001101 (R73). -/
theorem test_decode_decChar : decode 0b10010000000001001101#20 = .legal (.decChar 0x4D) := by decide

/-- R65: 1010 and sixteen zeros. -/
theorem test_decode_decEnd : decode 0b10100000000000000000#20 = .legal .decEnd := by decide

/-- R67: each cause of an illegal word, by name (W2, W5, W9, W10). -/
theorem test_decode_refuses_by_name :
    decode 0x1FF00#20 = .illegal (.encByteHigh 0xFF) ∧
    decode 0x20001#20 = .illegal (.encEndOperand 1) ∧
    decode 0xA8000#20 = .illegal (.decEndOperand 0x8000) ∧
    decode 0xFFFFF#20 = .illegal (.opcode 0xF) := by decide

/-- The host's two fixed names on the rows of the table: each is decoded, and DEC_CHAR 'Z' runs as
the first command after reset (D50). -/
theorem test_table_word_runs :
    decodeTableWord 24 0x10000 = some (.encByte 0) ∧ decodeTableWord 24 0x20000 = some .encEnd ∧
    decodeTableWord 24 0x9005A = some (.decChar 0x5A) ∧ decodeTableWord 24 0xA0000 = some .decEnd ∧
    decodeTableWord 24 0 = none ∧
    after (step (State.reset.withFetchWord 24 0x9005A)) = some (decAt 1 25) := by decide

-- ---------------------------------------------------------------- the commands

/-- E19: a first byte is held. -/
theorem test_encByte_holds : after (exec (.encByte 0x66) (encAt 0 0)) = some (encAt 1 0x66) := by decide

/-- E20: the fifth byte emits the group's eight characters and empties the buffer. -/
theorem test_encByte_completes_group :
    after (exec (.encByte 0x9A) (encAt 4 0x12345678)) =
      some { State.reset with encOut := (bytes "CI2FM6E2").map .chr } := by decide

/-- E22: the one-byte tail has 8 data bits and 2 zero bits (conflict C1). -/
theorem test_encEnd_one_byte :
    after (exec .encEnd (encAt 1 0xFF)) =
      some { State.reset with encOut := (bytes "74======").map .chr ++ [.endMsg] } := by decide

/-- E25: the four-byte tail. -/
theorem test_encEnd_four_bytes :
    after (exec .encEnd (encAt 4 0xFFFFFFFF)) =
      some { State.reset with encOut := (bytes "777777Y=").map .chr ++ [.endMsg] } := by decide

/-- D57: the eighth symbol moves the group's five bytes to `dec.pend`; nothing is emitted. -/
theorem test_decChar_completes_group :
    after (exec (.decChar 0x42) (decAt 7 0x3337B7B13)) =
      some { State.reset with dec := { Dec.start with pend := fooba } } := by decide

/-- D58: a group that does not fit raises OVERFLOW and marks the message. -/
theorem test_decChar_overflows :
    after (exec (.decChar 0x41) fullAt) =
      some { fullAt with fault := 2, dec := { Dec.start with pend := fooba, err := true } } := by decide

/-- D67: the seven-symbol tail drops three bits and gives four bytes. -/
theorem test_decEnd_seven_symbols :
    after (exec .decEnd (decAt 7 0x22190A6)) =
      some { State.reset with decOut := [.byte 0x00, .byte 0x44, .byte 0x32, .byte 0x14, .endValid] } := by
  decide

/-- D68: an error discards the pending bytes. -/
theorem test_decEnd_discards_on_error :
    after (exec .decEnd { State.reset with dec :=
        { Dec.start with cnt := 2, err := true, pend := fooba } }) =
      some { State.reset with decOut := [.endInvalid] } := by decide

-- ---------------------------------------------------------------- the block

/-- W11: an illegal word adds its bit and changes nothing else. -/
theorem test_illegal_word_sets_bit_zero :
    after (step { encAt 3 7 with fault := 2, input := [.cmd 0x10166] }) =
      some { encAt 3 7 with fault := 3 } := by decide

/-- W13, W14: reset from a state with messages in progress. -/
theorem test_reset_clears :
    after (step { fullAt with enc := { buf := 9, cnt := 3 }, fault := 3, encOut := [.endMsg],
                              decOut := [.endInvalid], input := [.rst, .takeEnc] }) =
      some { State.resetWith (.bytes 5) with input := [.takeEnc] } := by decide

/-- R154: the host takes the older item. -/
theorem test_take_is_first_in_first_out :
    after (step { State.reset with encOut := [.chr 0x4D, .endMsg], input := [.takeEnc] }) =
      some { State.reset with encOut := [.endMsg] } := by decide

-- ---------------------------------------------------------------- reference functions, assembler

/-- S5, E17: the reference encoder. -/
theorem test_refEncode :
    refEncode [0x66, 0x6F, 0x6F, 0x62] = bytes "MZXW6YQ=" ∧
    refEncode (fooba ++ [0x72]) = bytes "MZXW6YTBOI======" := by decide

/-- S8, D19, D35: short padding, whitespace inside a group, an interior `=`. -/
theorem test_refDecode :
    refDecode (chars "MY=") = .valid [0x66] ∧
    refDecode (chars "MZXW\n6YTB") = .valid fooba ∧
    refDecode (chars "MY= A") = .invalid := by decide

/-- P1's source lines and P2's first, and R71's refusals. -/
theorem test_assemble :
    assembleLine (codesOf "ENC_MSG 0xFF, 'f' ; a comment") =
      .ok [.encByte 0xFF, .encByte 0x66, .encEnd] ∧
    assembleLine (codesOf "DEC_STR \"M\\n6\"") = .ok [.decChar 77, .decChar 10, .decChar 54, .decEnd] ∧
    assembleLine (codesOf "DEC_CHAR '\\u0141'") = .ok [.decChar 0x141] ∧
    assembleLine (codesOf "ENC_BYTE 256") = .error .range ∧
    assembleLine (codesOf "ENC_BYTE'a'") = .ok [.encByte 97] ∧
    assembleLine (codesOf "ENC_BYTE") = .error .operand ∧
    assembleLine (codesOf "NOP") = .error .mnemonic := by decide

-- ---------------------------------------------------------------- witnesses

theorem witness_DecodeOfEncode : ∃ i : Instr, i.wellFormed = true := ⟨.decChar 0xFFFF, by decide⟩

theorem witness_EncodeOfDecode : ∃ (w : Word) (i : Instr), decode w = .legal i :=
  ⟨0x9FFFF, .decChar 0xFFFF, by decide⟩

theorem witness_StepRunsTheDecodedCommand :
    ∃ (s : State) (w : Word) (rest : List HostEvent) (i : Instr),
      s.input = .cmd w :: rest ∧ decode w = .legal i :=
  ⟨{ State.reset with input := [.cmd 0x100FF] }, 0x100FF, [], .encByte 0xFF, by decide, by decide⟩

theorem witness_IllegalWordSetsIllegalOnly :
    wordWellFormed 0x10100#20 = false ∧ wordWellFormed 0x0FFFF#20 = false ∧
    wordWellFormed 0x20001#20 = false ∧ wordWellFormed 0xAFFFF#20 = false := by decide

theorem witness_IdleStepChangesNothing : State.reset.input = [] := by decide

theorem witness_HostTakesQueueHeads_enc :
    ∃ (s : State) (rest : List HostEvent), s.input = .takeEnc :: rest ∧ ∃ x q, s.encOut = x :: q :=
  ⟨{ State.reset with input := [.takeEnc], encOut := [.endMsg] }, [], by decide, .endMsg, [], by decide⟩

theorem witness_HostTakesQueueHeads_enc_empty :
    ∃ (s : State) (rest : List HostEvent), s.input = .takeEnc :: rest ∧ s.encOut = [] :=
  ⟨{ State.reset with input := [.takeEnc] }, [], by decide, by decide⟩

theorem witness_HostTakesQueueHeads_dec :
    ∃ (s : State) (rest : List HostEvent), s.input = .takeDec :: rest ∧ ∃ x q, s.decOut = x :: q :=
  ⟨{ State.reset with input := [.takeDec], decOut := [.byte 0] }, [], by decide, .byte 0, [], by decide⟩

theorem witness_HostTakesQueueHeads_dec_empty :
    ∃ (s : State) (rest : List HostEvent), s.input = .takeDec :: rest ∧ s.decOut = [] :=
  ⟨{ State.reset with input := [.takeDec] }, [], by decide, by decide⟩

theorem witness_PortsShowQueueHeads :
    eoHead { State.reset with encOut := [.chr 0xFF] } = some (0, 0xFF) ∧
    eoHead { State.reset with encOut := [.endMsg] } = some (1, 0) ∧
    doHead { State.reset with decOut := [.byte 0xFF] } = some (0, 0xFF) ∧
    doHead { State.reset with decOut := [.endValid] } = some (1, 0) ∧
    doHead { State.reset with decOut := [.endInvalid] } = some (2, 0) := by decide

theorem witness_ResetInputRestoresResetValues :
    ∃ (s : State) (rest : List HostEvent), s.input = .rst :: rest ∧ s.fault ≠ 0 ∧ s.enc.cnt ≠ 0 :=
  ⟨{ encAt 3 7 with fault := 3, input := [.rst] }, [], by decide, by decide, by decide⟩

theorem witness_EncByteResult_completes : (encAt 4 0x12345678).enc.cnt.val + 1 = 5 := by decide

theorem witness_EncByteResult_holds :
    (encAt 3 0x123456).enc.cnt.val + 1 ≠ 5 ∧ (encAt 0 0).enc.cnt.val + 1 ≠ 5 := by decide

theorem witness_EncEndResult :
    ∀ row ∈ [(0, 0, 0, 0), (1, 2, 2, 6), (2, 4, 4, 4), (3, 5, 1, 3), (4, 7, 3, 1)],
      (encAt (Fin.ofNat 5 row.1) 0).enc.cnt.val = row.1 := by decide

theorem witness_EncoderCommandsFrame :
    (∃ t, exec (.encByte 0) (encAt 4 0) = .next t) ∧ ∃ t, exec .encEnd (encAt 1 0) = .next t :=
  ⟨⟨_, rfl⟩, ⟨_, rfl⟩⟩

theorem witness_EmittedSymbolsAreRomEntries :
    ∃ (s t : State) (items : List EncItem) (c : Byte), exec .encEnd s = .next t ∧
      t.encOut = s.encOut ++ items ∧ .chr c ∈ items ∧ c ≠ 61 :=
  ⟨encAt 1 0xFF, _, _, 0x37, rfl, rfl, by decide, by decide⟩

theorem witness_PaddingOnlyEndsAMessage :
    ∃ (d : Byte) (s t : State) (items : List EncItem), exec (.encByte d) s = .next t ∧
      t.encOut = s.encOut ++ items ∧ items ≠ [] :=
  ⟨0x9A, encAt 4 0x12345678, _, _, rfl, rfl, by decide⟩

theorem witness_EncoderHoldsThePartialGroup : State.reset.enc = Enc.start := by decide

theorem witness_StreamingEncodeIsTheReference :
    State.reset.enc.cnt = 0 ∧ State.reset.enc.buf = 0 := by decide

theorem witness_EncodePaddingLaw :
    ∀ row ∈ [(0, 0), (1, 6), (2, 4), (3, 3), (4, 1)], (fooba.take row.1).length % 5 = row.1 := by decide

theorem witness_EncQueueOk_open : EncQueueOk { State.reset with encOut := [.chr 0x4D] } :=
  ⟨by simp [encMessages], by simp [openChars, alphabetCode]⟩

/-- A finished message with padding, and an open one: the shape asks for the padding to be last. -/
theorem witness_EncQueueOk_finished :
    EncQueueOk { State.reset with encOut := [.chr 0x4D, .chr 0x59, .chr 0x3D, .endMsg, .chr 0x41] } :=
  ⟨by
    intro m hm
    have hm' : m = [0x4D, 0x59, 0x3D] := by simpa [encMessages] using hm
    exact ⟨[0x4D, 0x59], 1, by rw [hm']; decide, by decide⟩,
   by decide⟩

theorem witness_StepKeepsTheEncoderQueueShape :
    ∃ s t : State, EncQueueOk s ∧ step s = .next t ∧ t ≠ s :=
  ⟨{ State.reset with encOut := [.chr 0x4D], input := [.cmd 0x20000] }, _,
    ⟨by simp [encMessages], by simp [openChars, alphabetCode]⟩, rfl, by decide⟩

theorem witness_RomContents :
    (rom 0).toNat = 65 ∧ (rom 25).toNat = 65 + 25 ∧ (rom 26).toNat = 24 + 26 ∧ (rom 31).toNat = 24 + 31 := by
  decide

theorem witness_ClassesOfCharacterCodes :
    classify 65 = .alpha 0 ∧ classify 90 = .alpha 25 ∧ classify 50 = .alpha 26 ∧ classify 55 = .alpha 31 ∧
    classify 9 = .ws ∧ classify 10 = .ws ∧ classify 13 = .ws ∧ classify 32 = .ws ∧ classify 61 = .pad ∧
    classify 64 = .other ∧ classify 91 = .other ∧ classify 49 = .other ∧ classify 56 = .other ∧
    classify 0x0141 = .other ∧ classify 0x000B = .other ∧ classify 0 = .other := by decide

theorem witness_ValueMapInvertsTheRom : classify 0x37 = .alpha 31 ∧ classify 0x41 = .alpha 0 := by decide

theorem witness_DecCharResult_malformed : (markErr (decAt 3 0)).dec.err = true := by decide

theorem witness_DecCharResult_whitespace :
    ∀ n ∈ [9, 10, 13, 32], (decAt 0 0).dec.err = false ∧ classify (BitVec.ofNat 16 n) = .ws := by decide

theorem witness_DecCharResult_pad : (decAt 0 0).dec.err = false ∧ classify 61 = .pad := by decide

theorem witness_DecCharResult_other :
    ∀ n ∈ [0, 49, 56, 64, 91, 0x141, 0xFFFF], (decAt 0 0).dec.err = false ∧
      classify (BitVec.ofNat 16 n) = .other := by decide

theorem witness_DecCharResult_symbols :
    (decAt 0 0).dec.err = false ∧ classify 65 = .alpha 0 ∧ classify 90 = .alpha 25 ∧
    classify 50 = .alpha 26 ∧ classify 55 = .alpha 31 := by decide

theorem witness_DecCharResult_symbol_after_pad :
    (decPadAt 2 0x198).dec.err = false ∧ (decPadAt 2 0x198).dec.pad = true := by decide

theorem witness_DecCharResult_symbol_held :
    (decAt 6 0).dec.err = false ∧ (decAt 6 0).dec.pad = false ∧ (decAt 6 0).dec.cnt.val + 1 ≠ 8 := by decide

theorem witness_DecCharResult_group_fits :
    (decAt 7 0).dec.pad = false ∧ (decAt 7 0).dec.cnt.val + 1 = 8 ∧ (decAt 7 0).decCap = .unbounded := by
  decide

theorem witness_DecCharResult_group_just_fits :
    ∃ s : State, s.dec.err = false ∧ s.dec.pad = false ∧ s.dec.cnt.val + 1 = 8 ∧
      ∃ n, s.decCap = .bytes n ∧ s.dec.pend.length + 5 ≤ n :=
  ⟨{ decAt 7 0 with decCap := .bytes 5 }, by decide, by decide, by decide, 5, by decide, by decide⟩

theorem witness_DecCharResult_group_overflows :
    ∃ s : State, s.dec.err = false ∧ s.dec.pad = false ∧ s.dec.cnt.val + 1 = 8 ∧
      ∃ n, s.decCap = .bytes n ∧ n < s.dec.pend.length + 5 :=
  ⟨{ fullAt with decCap := .bytes 9 }, by decide, by decide, by decide, 9, by decide, by decide⟩

theorem witness_DecEndResult_invalid :
    (markErr (decAt 0 0)).dec.err = true ∧ ∀ n ∈ [1, 3, 6], (decAt (Fin.ofNat 8 n) 0).dec.cnt.val ∈ [1, 3, 6] := by
  decide

theorem witness_DecEndResult_valid :
    ∀ row ∈ [(0, 0, 0), (2, 2, 1), (4, 4, 2), (5, 1, 3), (7, 3, 4)],
      (decAt (Fin.ofNat 8 row.1) 0).dec.err = false ∧ (decAt (Fin.ofNat 8 row.1) 0).dec.cnt.val = row.1 := by
  decide

theorem witness_DecoderCommandsFrame :
    (∃ t, exec (.decChar 0x41) fullAt = .next t ∧ t.fault = 2) ∧ ∃ t, exec .decEnd (decAt 2 0x198) = .next t :=
  ⟨⟨_, rfl, by decide⟩, ⟨_, rfl⟩⟩

theorem witness_OverflowRule :
    fullAt.decCap = .bytes 5 ∧ classify 0x41 = .alpha 0 ∧ fullAt.dec.err = false ∧ fullAt.dec.pad = false ∧
    fullAt.dec.cnt.val = 7 ∧ 5 < fullAt.dec.pend.length + 5 := by decide

theorem witness_OverflowRule_unbounded :
    ∃ t : State, State.reset.decCap = .unbounded ∧ exec (.decChar 0x41) (decAt 7 0) = .next t :=
  ⟨_, by decide, rfl⟩

theorem witness_MalformedMessageIgnoresTheRest : (markErr (decPadAt 5 3)).dec.err = true := by decide

theorem witness_DecoderHoldsThePartialGroup :
    ∃ u : State, State.reset.dec = Dec.start ∧
      runCommands ((chars "MY=").map .decChar) State.reset = .next u ∧ u.dec.err = false :=
  ⟨_, by decide, rfl, by decide⟩

theorem witness_PadFlagRealisesTheTrailingStrip :
    State.reset.dec = Dec.start ∧ runOverflows ((chars "MY= A").map .decChar) State.reset = false := by decide

theorem witness_StreamingDecodeIsTheReference :
    State.reset.dec = Dec.start ∧ runOverflows (decStr (chars "MY")) State.reset = false := by decide

theorem witness_EnoughCapacityNeverOverflows :
    (State.resetWith (.bytes 5)).dec = Dec.start ∧ 5 * (symbolCount (chars "MZXW6YTBOI======") / 8) ≤ 5 ∧
    State.reset.decCap = .unbounded := by decide

theorem witness_RoundTrip :
    (State.resetWith (.bytes 5)).enc = Enc.start ∧ (State.resetWith (.bytes 5)).dec = Dec.start ∧
    (State.resetWith (.bytes 5)).decCap = .bytes 5 ∧ 5 * (fooba.length / 5) ≤ 5 ∧
    State.reset.decCap = .unbounded := by decide

theorem witness_DecodeRejectionLaws_character :
    ∀ n ∈ [97, 122, 48, 49, 56, 57, 33, 47, 58, 64, 91, 96, 123, 126, 0x141],
      classify (BitVec.ofNat 16 n) = .other ∧ BitVec.ofNat 16 n ∈ chars "M" ++ [BitVec.ofNat 16 n] := by decide

theorem witness_DecodeRejectionLaws_count :
    symbolCount (chars "ABCDEFGHI") % 8 = 1 ∧ symbolCount (chars "ABC") % 8 = 3 ∧
    symbolCount (chars "ABCDEF") % 8 = 6 := by decide

theorem witness_DecodeRejectionLaws_interior : classify 61 = .pad ∧ classify 0x59 = .alpha 24 := by decide

theorem witness_WhitespaceIsSkippedAnywhere : ∀ n ∈ [9, 10, 13, 32], classify (BitVec.ofNat 16 n) = .ws := by
  decide

theorem witness_DecodeLengthLaw : refDecode (chars "ABCDEFG") = .valid [0x00, 0x44, 0x32, 0x14] := by decide

theorem witness_EmptyMessages :
    State.reset.enc = Enc.start ∧ State.reset.dec = Dec.start ∧
    ∀ c ∈ [0x20#16, 0x09#16, 0x0A#16, 0x0D#16, 0x3D#16], c.toNat ∈ [9, 10, 13, 32, 61] :=
  ⟨by decide, by decide, by simp⟩

/-- The tails of "MY" and "MZ" (R108): they differ in the dropped bits. -/
theorem witness_DroppedBitsAreNotChecked :
    (decAt 2 0x198).dec.cnt.val = 2 ∧ (0x199 : Buf).toNat / 2 ^ 2 = (decAt 2 0x198).dec.buf.toNat / 2 ^ 2 ∧
    ∀ row ∈ [(2, 2), (4, 4), (5, 1), (7, 3)], (decAt (Fin.ofNat 8 row.1) 0).dec.cnt.val = row.1 ∧
      (1 : Buf).toNat / 2 ^ row.2 = (decAt (Fin.ofNat 8 row.1) 0).dec.buf.toNat / 2 ^ row.2 := by decide

theorem witness_StepKeepsTheInvariants :
    ∃ s t : State, Inv s ∧ step s = .next t ∧ t.fault ≠ s.fault :=
  ⟨{ fullAt with input := [.cmd 0x90041] }, _, by decide, rfl, by decide⟩

theorem witness_FaultBitsAreSticky :
    ∃ s t : State, step s = .next t ∧ (∀ rest, s.input ≠ .rst :: rest) ∧
      faultIs .illegal s = true ∧ faultIs .overflow s = true :=
  ⟨{ State.reset with fault := 3, input := [.cmd 0x20000] }, _, rfl, by simp, by decide, by decide⟩

theorem witness_OneCommandRaisesAtMostOneFault :
    wordWellFormed 0x00000#20 = false ∧ decode 0x90041#20 = .legal (.decChar 0x41) ∧
    overflowsAt (.decChar 0x41) fullAt = true ∧ decode 0xA0000#20 = .legal .decEnd ∧
    (after (step { fullAt with input := [.cmd 0x90041] })).isSome := by decide

/-- Each field that a step can change does change in some step. -/
theorem witness_OnlyTheNamedEventsWriteAField :
    (∀ t, step { State.reset with input := [.cmd 0x10066] } = .next t → t.enc ≠ State.reset.enc) ∧
    (∀ t, step { State.reset with input := [.cmd 0x9003D] } = .next t → t.dec ≠ State.reset.dec) ∧
    (∀ t, step { State.reset with input := [.cmd 0x00000] } = .next t → t.fault ≠ State.reset.fault) ∧
    (∀ t, step { State.reset with input := [.cmd 0x20000] } = .next t → t.encOut ≠ State.reset.encOut) ∧
    (∀ t, step { State.reset with input := [.cmd 0xA0000] } = .next t → t.decOut ≠ State.reset.decOut) := by
  refine ⟨?_, ?_, ?_, ?_, ?_⟩ <;> rintro _ ⟨⟩ <;> decide

theorem witness_UnitsAreIndependent_enc :
    ∃ s s' t t' : State, exec .encEnd s = .next t ∧ exec .encEnd s' = .next t' ∧ s.enc = s'.enc ∧ s ≠ s' :=
  ⟨encAt 1 0xFF, { fullAt with enc := { buf := 0xFF, cnt := 1 } }, _, _, rfl, rfl, by decide, by decide⟩

theorem witness_UnitsAreIndependent_dec :
    ∃ s s' t t' : State, exec .decEnd s = .next t ∧ exec .decEnd s' = .next t' ∧ s.dec = s'.dec ∧
      s.decCap = s'.decCap ∧ s ≠ s' :=
  ⟨State.reset, encAt 1 0xFF, _, _, rfl, rfl, by decide, by decide, by decide⟩

/-- The case in which `fault` is written: one overflow, from two states that differ in the encoder
and in `fault`. -/
theorem witness_UnitsAreIndependent_overflow :
    ∃ s s' t t' : State, exec (.decChar 0x41) s = .next t ∧ exec (.decChar 0x41) s' = .next t' ∧
      s.dec = s'.dec ∧ s.decCap = s'.decCap ∧ s.enc ≠ s'.enc ∧ t.fault = 2 ∧ t'.fault = 3 :=
  ⟨fullAt, { fullAt with enc := { buf := 0xFF, cnt := 1 }, fault := 1 }, _, _, rfl, rfl,
    by decide, by decide, by decide, by decide, by decide⟩

/-- P3 without its illegal word: two messages, interleaved. -/
theorem witness_ClosedCommandListsDeliverEveryMessage :
    closedProgram [.encByte 0x66, .decChar 0x4D, .decChar 0x59, .encEnd, .decEnd] = true ∧
    State.reset.enc = Enc.start ∧ State.reset.dec = Dec.start ∧
    runOverflows [.encByte 0x66, .decChar 0x4D, .decChar 0x59, .encEnd, .decEnd] State.reset = false := by
  decide

/-- 0xFFFF is the widest code presented as it is, 0x10041 one whose low 16 bits are `A`. -/
theorem witness_WideCharactersClassifyOther :
    (presentChar 0xFFFF).toNat = 0xFFFF ∧ classify (presentChar 0x10041) = .other := by decide

/-- Digits in range and out of it for each command, decimal and hexadecimal: 255, 256, 65536, 0xFf. -/
theorem witness_NumberOperandLines :
    (∀ ds ∈ [[50, 53, 53], [50, 53, 54], [54, 53, 53, 51, 54]], ds ≠ [] ∧ ∀ c ∈ ds, 48 ≤ c ∧ c ≤ 57) ∧
    ([70, 102] ≠ ([] : List Nat) ∧ ∀ c ∈ [70, 102], (65 ≤ c ∧ c ≤ 70) ∨ (97 ≤ c ∧ c ≤ 102)) := by decide

theorem witness_OperandRangeChecks :
    encByteOf 255 = .ok (.encByte 255) ∧ encByteOf 256 = .error .range ∧
    decCharOf 65535 = .ok (.decChar 65535) ∧ decCharOf 65536 = .error .range := by decide

theorem witness_DecStrLineExpands : ∀ c ∈ [0, 10, 39, 59, 65535], c ≤ 65535 ∧ c ≠ 34 ∧ c ≠ 92 := by decide

end Sys2Proof.Tests
end

section
/-!
The scope of a command: what it can write, and what that depends on. An encoder command is one
update of the encoder and of `enc_out`, a decoder command one update of the decoder, of `dec_out`
and of the OVERFLOW bit. Each update is named from the unit alone, before any state is given, so
that one equation says that the command answers, what it leaves unchanged and what it does not read.
-/

namespace Sys2Proof.Machine

/-- The outcome is a next state: no fault and no refusal. -/
abbrev Answers (o : Host.Outcome State Fault Refusal) : Prop := ∃ t, o = .next t

theorem next_unique {o : Host.Outcome State Fault Refusal} {s t : State}
    (ht : o = .next t) (hs : o = .next s) : t = s :=
  Host.Outcome.next.inj (ht.symm.trans hs)

-- ---------------------------------------------------------------- the encoder's commands

/-- ENC_BYTE's update is fixed by the encoder unit (R84). -/
theorem execEncByte_update (d : Byte) (e : Enc) :
    ∃ (e' : Enc) (items : List EncItem), ∀ s : State, s.enc = e →
      execEncByte d s = .next { s with enc := e', encOut := s.encOut ++ items } := by
  by_cases hfull : e.cnt.val + 1 = 5
  · refine ⟨Enc.start, (groupChars (pushByte e.buf d)).map .chr, ?_⟩
    rintro s rfl
    exact if_pos hfull
  · refine ⟨{ buf := pushByte e.buf d, cnt := Fin.ofNat 5 (e.cnt.val + 1) }, [], ?_⟩
    rintro s rfl
    simp [execEncByte, holdByte, hfull]

/-- An encoder command's update is fixed by the encoder unit (R14, R84, R85). -/
theorem exec_enc_update {i : Instr} (hi : i.unit = .enc) (e : Enc) :
    ∃ (e' : Enc) (items : List EncItem), ∀ s : State, s.enc = e →
      exec i s = .next { s with enc := e', encOut := s.encOut ++ items } := by
  cases i with
  | encByte d => exact execEncByte_update d e
  | encEnd =>
    refine ⟨Enc.start, (tailChars e.cnt e.buf).map .chr ++ [.endMsg], ?_⟩
    rintro s rfl
    rfl
  | decChar c => cases hi
  | decEnd => cases hi

-- ---------------------------------------------------------------- the decoder's commands

/-- A completed group's update is fixed by the decoder unit and the capacity: without a bit of
`fault` where the group fits, with OVERFLOW where it does not (R110, R135). -/
theorem finishGroup_update (w : Buf) (d : Dec) (cap : Capacity) :
    ∃ (d' : Dec) (bits : BitVec 2), (bits = 0#2 ∨ bits = 2#2) ∧
      ∀ s : State, s.dec = d → s.decCap = cap →
        finishGroup w s = { s with dec := d', fault := s.fault ||| bits } := by
  by_cases hfit : fits cap (d.pend.length + 5) = true
  · refine ⟨{ d with buf := 0, cnt := 0, pend := d.pend ++ bytesOf 5 w }, 0#2, .inl rfl, ?_⟩
    rintro s rfl rfl
    simp [finishGroup, hfit]
  · refine ⟨{ d with buf := 0, cnt := 0, err := true }, 2#2, .inr rfl, ?_⟩
    rintro s rfl rfl
    exact if_neg hfit

/-- An accepted symbol's update is fixed by the decoder unit and the capacity (R110). -/
theorem acceptSymbol_update (v : Sym) (d : Dec) (cap : Capacity) :
    ∃ (d' : Dec) (bits : BitVec 2), (bits = 0#2 ∨ bits = 2#2) ∧
      ∀ s : State, s.dec = d → s.decCap = cap →
        acceptSymbol v s = { s with dec := d', fault := s.fault ||| bits } := by
  by_cases hfull : d.cnt.val + 1 = 8
  · obtain ⟨d', bits, hbits, hgroup⟩ := finishGroup_update (pushSym d.buf v) d cap
    refine ⟨d', bits, hbits, ?_⟩
    rintro s rfl rfl
    exact (if_pos hfull).trans (hgroup s rfl rfl)
  · refine ⟨{ d with buf := pushSym d.buf v, cnt := Fin.ofNat 8 (d.cnt.val + 1) }, 0#2, .inl rfl, ?_⟩
    rintro s rfl rfl
    simp [acceptSymbol, hfull]

/-- DEC_CHAR's update is fixed by the decoder unit and the capacity; it emits nothing, and OVERFLOW
is the only bit of `fault` it can set (R110, R135). -/
theorem execDecChar_update (c : CharCode) (d : Dec) (cap : Capacity) :
    ∃ (d' : Dec) (bits : BitVec 2), (bits = 0#2 ∨ bits = 2#2) ∧
      ∀ s : State, s.dec = d → s.decCap = cap →
        execDecChar c s = .next { s with dec := d', fault := s.fault ||| bits } := by
  by_cases herr : d.err = true
  · refine ⟨d, 0#2, .inl rfl, ?_⟩
    rintro s rfl rfl
    simp [execDecChar, herr]
  cases hc : classify c with
  | alpha v =>
    by_cases hpad : d.pad = true
    · refine ⟨{ d with err := true }, 0#2, .inl rfl, ?_⟩
      rintro s rfl rfl
      simp [execDecChar, markErr, herr, hc, hpad]
    · obtain ⟨d', bits, hbits, hsym⟩ := acceptSymbol_update v d cap
      refine ⟨d', bits, hbits, ?_⟩
      rintro s rfl rfl
      simp [execDecChar, herr, hc, hpad, hsym s rfl rfl]
  | ws =>
    refine ⟨d, 0#2, .inl rfl, ?_⟩
    rintro s rfl rfl
    simp [execDecChar, hc]
  | pad =>
    refine ⟨{ d with pad := true }, 0#2, .inl rfl, ?_⟩
    rintro s rfl rfl
    simp [execDecChar, markPad, herr, hc]
  | other =>
    refine ⟨{ d with err := true }, 0#2, .inl rfl, ?_⟩
    rintro s rfl rfl
    simp [execDecChar, markErr, herr, hc]

/-- A decoder command's update is fixed by the decoder unit and the capacity; DEC_CHAR emits
nothing, DEC_END sets no bit of `fault`, and OVERFLOW is the only bit that can be set (R14, R110,
R111). -/
theorem exec_dec_update {i : Instr} (hi : i.unit = .dec) (d : Dec) (cap : Capacity) :
    ∃ (d' : Dec) (bits : BitVec 2) (items : List DecItem),
      ((∃ c, i = .decChar c) → items = []) ∧ (i = .decEnd → bits = 0#2) ∧
      (bits = 0#2 ∨ bits = 2#2) ∧
      ∀ s : State, s.dec = d → s.decCap = cap →
        exec i s =
          .next { s with dec := d', fault := s.fault ||| bits, decOut := s.decOut ++ items } := by
  cases i with
  | encByte b => cases hi
  | encEnd => cases hi
  | decChar c =>
    obtain ⟨d', bits, hbits, hchar⟩ := execDecChar_update c d cap
    exact ⟨d', bits, [], fun _ => rfl, nofun, hbits,
      fun s hd hcap => by simpa [exec] using hchar s hd hcap⟩
  | decEnd =>
    refine ⟨Dec.start, 0#2, resultItems (messageResult d), nofun, fun _ => rfl, .inl rfl, ?_⟩
    rintro s rfl rfl
    simp [exec, execDecEnd, startDec, emitDec]

-- ---------------------------------------------------------------- every command answers

/-- Every command is a total function of the state (R15). -/
theorem exec_answers (i : Instr) (s : State) : Answers (exec i s) := by
  cases hi : i.unit with
  | enc =>
    obtain ⟨_, _, hexec⟩ := exec_enc_update hi s.enc
    exact ⟨_, hexec s rfl⟩
  | dec =>
    obtain ⟨_, _, _, _, _, _, hexec⟩ := exec_dec_update hi s.dec s.decCap
    exact ⟨_, hexec s rfl rfl⟩

/-- Every word is accepted, an illegal one too (R16, R133). -/
theorem acceptWord_answers (w : Word) (s : State) : Answers (acceptWord w s) := by
  obtain ⟨i, -, hw⟩ | ⟨_, -, hw⟩ := acceptWord_cases w s
  · exact hw ▸ exec_answers i s
  · exact ⟨_, hw⟩

/-- Every action of the host has its effect on the block. -/
theorem applyEvent_answers (e : HostEvent) (s : State) : Answers (applyEvent e s) := by
  cases e with
  | cmd w => exact acceptWord_answers w s
  | takeEnc => exact ⟨takeEncItem s, rfl⟩
  | takeDec => exact ⟨takeDecItem s, rfl⟩
  | rst => exact ⟨resetBlock s, rfl⟩

/-- Settles O11: with no action to come the step is idle, and every action of the host answers. -/
theorem everyStepAnswersANextState : Obligations.EveryStepAnswersANextState := by
  intro s
  obtain ⟨-, hidle⟩ | ⟨e, rest, -, hstep⟩ := step_cases s
  · exact ⟨s, hidle⟩
  · exact hstep ▸ applyEvent_answers e _

-- ---------------------------------------------------------------- frames and independence

/-- What an encoder command leaves unchanged, and that `enc_out` only grows at its end (R14). -/
theorem exec_enc_frame {i : Instr} {s t : State} (hi : i.unit = .enc) (ht : exec i s = .next t) :
    t.dec = s.dec ∧ t.decOut = s.decOut ∧ t.fault = s.fault ∧ t.decCap = s.decCap ∧
    t.input = s.input ∧ s.encOut <+: t.encOut := by
  obtain ⟨_, items, hexec⟩ := exec_enc_update hi s.enc
  obtain rfl := next_unique ht (hexec s rfl)
  exact ⟨rfl, rfl, rfl, rfl, rfl, items, rfl⟩

/-- Settles O16: ENC_BYTE and ENC_END are the commands of the encoder unit. -/
theorem encoderCommandsFrame : Obligations.EncoderCommandsFrame := by
  intro i s t hi ht
  have hunit : i.unit = .enc := by obtain ⟨d, rfl⟩ | rfl := hi <;> rfl
  exact exec_enc_frame hunit ht

/-- Settles O29: a decoder command is an update of the decoder, of the end of `dec_out` and of the
OVERFLOW bit. -/
theorem decoderCommandsFrame : Obligations.DecoderCommandsFrame := by
  intro i s t hi ht
  have hunit : i.unit = .dec := by obtain ⟨c, rfl⟩ | rfl := hi <;> rfl
  obtain ⟨d', bits, items, hchar, hend, hbits, hexec⟩ := exec_dec_update hunit s.dec s.decCap
  obtain rfl := next_unique ht (hexec s rfl rfl)
  refine ⟨rfl, rfl, rfl, rfl, ⟨items, rfl⟩, ?_, ?_, ?_⟩
  · intro h
    simp [hchar h]
  · intro h
    simp [hend h]
  · obtain rfl | rfl := hbits
    · exact .inl (by simp)
    · exact .inr rfl

/-- Settles O50: the update of a command is fixed by its own unit, so from two states that agree on
that unit it is the same update. -/
theorem unitsAreIndependent : Obligations.UnitsAreIndependent := by
  intro i s s' t t' ht ht'
  constructor
  · intro hunit
    obtain ⟨hdec, hdecOut, hfault, -⟩ := exec_enc_frame hunit ht
    obtain ⟨-, -, hfault', -⟩ := exec_enc_frame hunit ht'
    refine ⟨hdec, hdecOut, hfault, hfault', fun henc => ?_⟩
    obtain ⟨_, items, hexec⟩ := exec_enc_update hunit s.enc
    obtain rfl := next_unique ht (hexec s rfl)
    obtain rfl := next_unique ht' (hexec s' henc.symm)
    exact ⟨rfl, items, rfl, rfl⟩
  · intro hunit
    obtain ⟨_, bits, items, -, -, -, hexec⟩ := exec_dec_update hunit s.dec s.decCap
    obtain rfl := next_unique ht (hexec s rfl rfl)
    refine ⟨rfl, rfl, fun hdec hcap => ?_⟩
    obtain rfl := next_unique ht' (hexec s' hdec.symm hcap.symm)
    exact ⟨rfl, ⟨bits, rfl, rfl⟩, items, rfl, rfl⟩

end Sys2Proof.Machine
end

section
/-!
The invariants of R37 and what each step can write. A unit's commands are followed through its own
buffer: shifting a byte or a symbol into a buffer that holds nothing above its count is arithmetic
without loss, which gives the bounds of R37 for every step, and the contents of the partial group
for every message.
-/

namespace Sys2Proof.Machine

open Sys2Proof.Safety

-- ---------------------------------------------------------------- single steps and end commands

theorem decCommand_of_unit {i : Instr} (hi : i.unit = .dec) : (∃ c, i = .decChar c) ∨ i = .decEnd := by
  cases i with
  | encByte d => cases hi
  | encEnd => cases hi
  | decChar c => exact .inl ⟨c, rfl⟩
  | decEnd => exact .inr rfl

theorem step_of_input {s : State} {e : HostEvent} {rest : List HostEvent} (h : s.input = e :: rest) :
    step s = applyEvent e { s with input := rest } := by
  simp [step, h]

/-- Settles O13: the reset values are fields of `State.resetWith`, and an end command starts its
unit's next message. -/
theorem resetAndStartOfMessageValues : Obligations.ResetAndStartOfMessageValues := by
  refine ⟨fun cap => ⟨rfl, rfl, rfl, rfl, rfl⟩, fun s => ?_, fun s => ?_⟩
  · exact ⟨_, rfl, rfl, rfl, ⟨_, rfl⟩, rfl⟩
  · exact ⟨_, rfl, rfl, rfl, ⟨_, rfl⟩, rfl⟩

-- ---------------------------------------------------------------- shifting into a buffer with room

theorem pushByte_toNat_of_lt {buf : Buf} {k : Nat} (h : buf.toNat < 2 ^ (8 * k)) (hk : k ≤ 4) (d : Byte) :
    (pushByte buf d).toNat = buf.toNat * 2 ^ 8 + d.toNat := by
  have hroom : 2 ^ (8 * k) ≤ 2 ^ 32 := Nat.pow_le_pow_right (by decide) (by omega)
  have hd : d.toNat < 2 ^ 8 := d.isLt
  rw [pushByte_toNat]
  omega

theorem pushByte_toNat_lt {buf : Buf} {k : Nat} (h : buf.toNat < 2 ^ (8 * k)) (d : Byte) :
    (pushByte buf d).toNat < 2 ^ (8 * (k + 1)) := by
  have hd : d.toNat < 2 ^ 8 := d.isLt
  rw [pushByte_toNat, Nat.mul_succ, Nat.pow_add]
  omega

theorem pushSym_toNat_of_lt {buf : Buf} {k : Nat} (h : buf.toNat < 2 ^ (5 * k)) (hk : k ≤ 7) (v : Sym) :
    (pushSym buf v).toNat = buf.toNat * 2 ^ 5 + v.toNat := by
  have hroom : 2 ^ (5 * k) ≤ 2 ^ 35 := Nat.pow_le_pow_right (by decide) (by omega)
  have hv : v.toNat < 2 ^ 5 := v.isLt
  rw [pushSym_toNat]
  omega

theorem pushSym_toNat_lt {buf : Buf} {k : Nat} (h : buf.toNat < 2 ^ (5 * k)) (v : Sym) :
    (pushSym buf v).toNat < 2 ^ (5 * (k + 1)) := by
  have hv : v.toNat < 2 ^ 5 := v.isLt
  rw [pushSym_toNat, Nat.mul_succ, Nat.pow_add]
  omega

-- ---------------------------------------------------------------- the invariants of R37

theorem encOk_start : EncOk Enc.start := by decide

theorem decOk_start (cap : Capacity) : DecOk cap Dec.start :=
  ⟨by decide, rfl, by cases cap <;> simp [fits]⟩

/-- Settles O45: both units are at their start-of-message values and the queue is empty. -/
theorem invariantsHoldAtReset : Obligations.InvariantsHoldAtReset := by
  intro cap
  refine ⟨⟨encOk_start, decOk_start cap⟩, ?_⟩
  simp [EncQueueOk, encMessages, openChars]

theorem exec_enc_keeps_encOk {i : Instr} {s t : State} (hi : i.unit = .enc) (ht : exec i s = .next t)
    (hs : EncOk s.enc) : EncOk t.enc := by
  cases i with
  | encByte d =>
    obtain ⟨-, hexec⟩ | ⟨k, hk, hexec⟩ := execEncByte_cases d s
    · obtain rfl := next_unique ht hexec
      exact encOk_start
    · obtain rfl := next_unique ht hexec
      simpa [EncOk, hk] using pushByte_toNat_lt hs d
  | encEnd =>
    obtain rfl := next_unique ht rfl
    exact encOk_start
  | decChar c => cases hi
  | decEnd => cases hi

/-- A completed group empties the buffer, and joins `pend` only where it fits (R110, R135). -/
theorem finishGroup_keeps_decOk {s : State} (w : Buf) (hs : DecOk s.decCap s.dec) :
    DecOk s.decCap (finishGroup w s).dec := by
  obtain ⟨-, hgroups, hfits⟩ := hs
  obtain ⟨hroom, heq⟩ | ⟨-, heq⟩ := finishGroup_cases w s
  · rw [heq]
    exact ⟨by simp, by simpa using hgroups, by simpa using hroom⟩
  · rw [heq]
    exact ⟨by simp, hgroups, hfits⟩

theorem acceptSymbol_keeps_decOk {s : State} (v : Sym) (hs : DecOk s.decCap s.dec) :
    DecOk s.decCap (acceptSymbol v s).dec := by
  obtain ⟨-, heq⟩ | ⟨k, hk, heq⟩ := acceptSymbol_cases v s
  · rw [heq]
    exact finishGroup_keeps_decOk _ hs
  · obtain ⟨hbuf, hpend⟩ := hs
    rw [heq]
    exact ⟨by simpa [hk] using pushSym_toNat_lt hbuf v, hpend⟩

theorem exec_dec_keeps_decOk {i : Instr} {s t : State} (hi : i.unit = .dec) (ht : exec i s = .next t)
    (hs : DecOk s.decCap s.dec) : DecOk s.decCap t.dec := by
  cases i with
  | encByte d => cases hi
  | encEnd => cases hi
  | decChar c =>
    obtain ⟨hexec, -⟩ | ⟨hexec, -⟩ | ⟨hexec, -⟩ | ⟨v, hexec, -⟩ := execDecChar_cases c s
    · obtain rfl := next_unique ht hexec
      exact hs
    · obtain rfl := next_unique ht hexec
      exact hs
    · obtain rfl := next_unique ht hexec
      exact hs
    · obtain rfl := next_unique ht hexec
      exact acceptSymbol_keeps_decOk v hs
  | decEnd =>
    obtain rfl := next_unique ht rfl
    exact decOk_start s.decCap

/-- A command keeps its own unit's invariant, and the other unit with the capacity is its frame. -/
theorem exec_keeps_inv {i : Instr} {s t : State} (ht : exec i s = .next t) (hs : Inv s) : Inv t := by
  obtain ⟨henc, hdec⟩ := hs
  cases hi : i.unit with
  | enc =>
    obtain ⟨hdecEq, -, -, hcap, -⟩ := exec_enc_frame hi ht
    exact ⟨exec_enc_keeps_encOk hi ht henc, by rwa [hdecEq, hcap]⟩
  | dec =>
    obtain ⟨hencEq, -, hcap, -⟩ := decoderCommandsFrame i s t (decCommand_of_unit hi) ht
    exact ⟨by rwa [hencEq], hcap ▸ exec_dec_keeps_decOk hi ht hdec⟩

theorem acceptWord_keeps_inv {w : Word} {s t : State} (ht : acceptWord w s = .next t) (hs : Inv s) :
    Inv t := by
  obtain ⟨i, -, hw⟩ | ⟨_, -, hw⟩ := acceptWord_cases w s
  · exact exec_keeps_inv (hw.symm.trans ht) hs
  · obtain rfl := next_unique ht hw
    exact hs

theorem applyEvent_keeps_inv {e : HostEvent} {s t : State} (ht : applyEvent e s = .next t) (hs : Inv s) :
    Inv t := by
  cases e with
  | cmd w => exact acceptWord_keeps_inv ht hs
  | takeEnc =>
    obtain rfl := next_unique ht rfl
    exact hs
  | takeDec =>
    obtain rfl := next_unique ht rfl
    exact hs
  | rst =>
    obtain rfl := next_unique ht rfl
    exact ⟨encOk_start, decOk_start s.decCap⟩

/-- Settles O46: the idle step changes nothing, and every action of the host keeps the invariants. -/
theorem stepKeepsTheInvariants : Obligations.StepKeepsTheInvariants := by
  intro s t hs ht
  obtain ⟨-, hidle⟩ | ⟨e, rest, -, hstep⟩ := step_cases s
  · exact next_unique ht hidle ▸ hs
  · exact applyEvent_keeps_inv (s := { s with input := rest }) (hstep.symm.trans ht) hs

-- ---------------------------------------------------------------- fault bits

/-- A command sets bits of `fault` and clears none (R133, R140). -/
theorem exec_fault_or {i : Instr} {s t : State} (ht : exec i s = .next t) :
    ∃ bits, t.fault = s.fault ||| bits := by
  cases hi : i.unit with
  | enc =>
    obtain ⟨-, -, hfault, -⟩ := exec_enc_frame hi ht
    exact ⟨0#2, by simp [hfault]⟩
  | dec =>
    obtain ⟨_, bits, _, -, -, -, hexec⟩ := exec_dec_update hi s.dec s.decCap
    obtain rfl := next_unique ht (hexec s rfl rfl)
    exact ⟨bits, rfl⟩

/-- No action of the host but reset clears a bit of `fault` (R133, R140). -/
theorem applyEvent_fault_or {e : HostEvent} {s t : State} (ht : applyEvent e s = .next t)
    (he : e ≠ .rst) : ∃ bits, t.fault = s.fault ||| bits := by
  cases e with
  | cmd w =>
    obtain ⟨i, -, hw⟩ | ⟨_, -, hw⟩ := acceptWord_cases w s
    · exact exec_fault_or (hw.symm.trans ht)
    · obtain rfl := next_unique ht hw
      exact ⟨1#2, rfl⟩
  | takeEnc =>
    obtain rfl := next_unique ht rfl
    exact ⟨0#2, by simp⟩
  | takeDec =>
    obtain rfl := next_unique ht rfl
    exact ⟨0#2, by simp⟩
  | rst => exact absurd rfl he

theorem or_and_ne_zero : ∀ fault bits mask : BitVec 2,
    fault &&& mask ≠ 0#2 → (fault ||| bits) &&& mask ≠ 0#2 := by decide

theorem faultIs_of_fault_or {k : FaultKind} {s t : State} {bits : BitVec 2}
    (ht : t.fault = s.fault ||| bits) (hs : faultIs k s = true) : faultIs k t = true := by
  simp only [faultIs, bne_iff_ne, ht] at hs ⊢
  exact or_and_ne_zero _ _ _ hs

/-- Settles O47: every action but reset only adds bits to `fault`. -/
theorem faultBitsAreSticky : Obligations.FaultBitsAreSticky := by
  intro s t k ht hrst hs
  obtain ⟨-, hidle⟩ | ⟨e, rest, hin, hstep⟩ := step_cases s
  · exact next_unique ht hidle ▸ hs
  · have he : e ≠ .rst := fun h => hrst rest (h ▸ hin)
    obtain ⟨bits, hbits⟩ := applyEvent_fault_or (hstep.symm.trans ht) he
    exact faultIs_of_fault_or hbits hs

-- ---------------------------------------------------------------- who writes each field

/-- A field of a command word that lies under a row's mask is that of the row's pattern (R60). -/
theorem extractLsb'_eq_of_and_eq {w m p : Word} {start len : Nat} (h : w &&& m = p)
    (hm : m.extractLsb' start len = BitVec.allOnes len) :
    w.extractLsb' start len = p.extractLsb' start len := by
  rw [← h, BitVec.extractLsb'_and, hm, BitVec.and_allOnes]

/-- A word of a row of the opcode table is legal (R62 to R65). -/
theorem decode_legal_of_wellFormed {w : Word} (h : wordWellFormed w = true) :
    ∃ i, decode w = .legal i := by
  have hrow : w &&& 0xFFF00#20 = 0x10000#20 ∨ w &&& 0xFFFFF#20 = 0x20000#20 ∨
      w &&& 0xF0000#20 = 0x90000#20 ∨ w &&& 0xFFFFF#20 = 0xA0000#20 := by
    simpa [wordWellFormed, opcodeTable, OpcodeRow.covers] using h
  obtain hrow | hrow | hrow | hrow := hrow
  · have hop : opField w = 0x1#4 := extractLsb'_eq_of_and_eq hrow (by decide)
    have hhigh : operandHigh w = 0 := extractLsb'_eq_of_and_eq hrow (by decide)
    simp [decode, hop, hhigh]
  · have hop : opField w = 0x2#4 := extractLsb'_eq_of_and_eq hrow (by decide)
    have hoperand : operandField w = 0 := extractLsb'_eq_of_and_eq hrow (by decide)
    simp [decode, hop, hoperand]
  · have hop : opField w = 0x9#4 := extractLsb'_eq_of_and_eq hrow (by decide)
    simp [decode, hop]
  · have hop : opField w = 0xA#4 := extractLsb'_eq_of_and_eq hrow (by decide)
    have hoperand : operandField w = 0 := extractLsb'_eq_of_and_eq hrow (by decide)
    simp [decode, hop, hoperand]

theorem not_wellFormed_of_illegal {w : Word} {why : IllegalWord} (h : decode w = .illegal why) :
    wordWellFormed w = false := by
  by_contra hw
  obtain ⟨i, hi⟩ := decode_legal_of_wellFormed (by simpa using hw)
  simp [h] at hi

/-- Settles O49: each action of the host by what it leaves unchanged. -/
theorem onlyTheNamedEventsWriteAField : Obligations.OnlyTheNamedEventsWriteAField := by
  intro s t e rest hin ht
  rw [step_of_input hin] at ht
  cases e with
  | cmd w =>
    obtain ⟨i, hlegal, hw⟩ | ⟨why, hillegal, hw⟩ := acceptWord_cases w { s with input := rest }
    · have hexec : exec i { s with input := rest } = .next t := hw.symm.trans ht
      cases hi : i.unit with
      | enc =>
        obtain ⟨hdec, hdecOut, hfault, hcap, hinput, -⟩ := exec_enc_frame hi hexec
        exact ⟨hinput, hcap, fun _ => .inr ⟨w, i, rfl, hlegal, hi⟩, absurd hdec, absurd hfault,
          fun _ => .inr (.inr ⟨w, i, rfl, hlegal, hi⟩), absurd hdecOut⟩
      | dec =>
        obtain ⟨henc, hencOut, hcap, hinput, -, hdecOut, hfault, -⟩ :=
          decoderCommandsFrame i _ t (decCommand_of_unit hi) hexec
        obtain ⟨c, rfl⟩ | rfl := decCommand_of_unit hi
        · exact ⟨hinput, hcap, absurd henc, fun _ => .inr ⟨w, _, rfl, hlegal, hi⟩,
            fun _ => .inr ⟨w, rfl, .inr ⟨c, hlegal⟩⟩, absurd hencOut, absurd (hdecOut ⟨c, rfl⟩)⟩
        · exact ⟨hinput, hcap, absurd henc, fun _ => .inr ⟨w, _, rfl, hlegal, hi⟩,
            absurd (hfault rfl), absurd hencOut, fun _ => .inr (.inr ⟨w, rfl, hlegal⟩)⟩
    · obtain rfl := next_unique ht hw
      exact ⟨rfl, rfl, absurd rfl, absurd rfl,
        fun _ => .inr ⟨w, rfl, .inl (not_wellFormed_of_illegal hillegal)⟩, absurd rfl, absurd rfl⟩
  | takeEnc =>
    obtain rfl := next_unique ht rfl
    exact ⟨rfl, rfl, absurd rfl, absurd rfl, absurd rfl, fun _ => .inr (.inl rfl), absurd rfl⟩
  | takeDec =>
    obtain rfl := next_unique ht rfl
    exact ⟨rfl, rfl, absurd rfl, absurd rfl, absurd rfl, absurd rfl, fun _ => .inr (.inl rfl)⟩
  | rst =>
    obtain rfl := next_unique ht rfl
    exact ⟨rfl, rfl, fun _ => .inl rfl, fun _ => .inl rfl, fun _ => .inl rfl, fun _ => .inl rfl,
      fun _ => .inl rfl⟩

-- ---------------------------------------------------------------- partial groups of a list

/-- What is left of a list after its full groups of `n`. -/
def partialGroup {α : Type} (n : Nat) (l : List α) : List α := l.drop (n * (l.length / n))

/-- The value of a group of `w`-bit items, the first one highest (R21, R24). -/
def groupValue {w : Nat} (l : List (BitVec w)) : Nat := l.foldl (fun acc x => acc * 2 ^ w + x.toNat) 0

@[simp] theorem groupValue_concat {w : Nat} (l : List (BitVec w)) (x : BitVec w) :
    groupValue (l ++ [x]) = groupValue l * 2 ^ w + x.toNat := by
  simp [groupValue]

/-- One more item completes the group. -/
theorem partialGroup_concat_full {α : Type} {n : Nat} {l : List α} (h : l.length % n + 1 = n) (x : α) :
    partialGroup n (l ++ [x]) = [] := by
  have hdvd : n ∣ l.length + 1 := ⟨l.length / n + 1, by
    rw [Nat.mul_add, Nat.mul_one]
    have := Nat.div_add_mod l.length n
    omega⟩
  simp [partialGroup, Nat.mul_div_cancel' hdvd]

/-- One more item joins the partial group. -/
theorem partialGroup_concat_short {α : Type} {n : Nat} {l : List α} (h : l.length % n + 1 < n) (x : α) :
    partialGroup n (l ++ [x]) = partialGroup n l ++ [x] := by
  have hdiv : (l.length + 1) / n = l.length / n := by
    rw [Nat.add_div (by omega), Nat.mod_eq_of_lt (show 1 < n by omega), if_neg (by omega),
      Nat.div_eq_of_lt (show 1 < n by omega)]
    rfl
  have hle : n * (l.length / n) ≤ l.length := Nat.mul_div_le _ _
  simp [partialGroup, hdiv, List.drop_append_of_le_length hle]

-- ---------------------------------------------------------------- messages, item by item

/-- What each command of a list of data keeps of the data so far, the whole list keeps. -/
theorem runCommands_map_keeps {α : Type} {f : α → Instr} {P : List α → State → Prop}
    (hstep : ∀ (l : List α) (x : α) (s t : State), P l s → exec (f x) s = .next t → P (l ++ [x]) t)
    (xs pre : List α) (s : State) (hs : P pre s) :
    ∃ t, runCommands (xs.map f) s = .next t ∧ P (pre ++ xs) t := by
  induction xs generalizing pre s with
  | nil => exact ⟨s, rfl, by simpa using hs⟩
  | cons x xs ih =>
    obtain ⟨u, hu⟩ := exec_answers (f x) s
    obtain ⟨t, ht, hP⟩ := ih (pre ++ [x]) u (hstep pre x s u hs hu)
    exact ⟨t, by simpa [runCommands, hu] using ht, by simpa using hP⟩

/-- The encoder unit after the bytes `b` of a message (R21, R22). -/
structure EncHolds (b : List Byte) (e : Enc) : Prop where
  bounded : EncOk e
  cnt : e.cnt.val = b.length % 5
  buf : e.buf.toNat = groupValue (partialGroup 5 b)

theorem encHolds_start : EncHolds [] Enc.start := ⟨encOk_start, rfl, rfl⟩

theorem encByte_encHolds {b : List Byte} {d : Byte} {s t : State} (hs : EncHolds b s.enc)
    (ht : exec (.encByte d) s = .next t) : EncHolds (b ++ [d]) t.enc := by
  have hbounded : EncOk t.enc := exec_enc_keeps_encOk rfl ht hs.bounded
  have hcnt := hs.cnt
  obtain ⟨hfour, hexec⟩ | ⟨k, hk, hexec⟩ := execEncByte_cases d s
  · obtain rfl := next_unique ht hexec
    refine ⟨hbounded, ?_, ?_⟩
    · have hfull : (b.length + 1) % 5 = 0 := by omega
      simp [hfull]
    · rw [partialGroup_concat_full (by omega)]
      rfl
  · obtain rfl := next_unique ht hexec
    have hroom := k.isLt
    refine ⟨hbounded, ?_, ?_⟩
    · simp only [List.length_append, List.length_singleton]
      omega
    · rw [partialGroup_concat_short (by omega), groupValue_concat, ← hs.buf]
      exact pushByte_toNat_of_lt hs.bounded (by omega) d

/-- Settles O19, byte by byte. -/
theorem encoderHoldsThePartialGroup : Obligations.EncoderHoldsThePartialGroup := by
  intro b s hs
  obtain ⟨t, ht, hholds⟩ := runCommands_map_keeps (f := Instr.encByte)
    (P := fun b s => EncHolds b s.enc) (fun _ _ _ _ => encByte_encHolds) b [] s (hs ▸ encHolds_start)
  exact ⟨t, ht, hholds.cnt, hholds.buf⟩

theorem alphaValues_concat_alpha {c : CharCode} {v : Sym} (h : classify c = .alpha v) (t : List CharCode) :
    alphaValues (t ++ [c]) = alphaValues t ++ [v] := by
  simp [alphaValues, h]

theorem alphaValues_concat_skipped {c : CharCode} (h : classify c = .ws ∨ classify c = .pad)
    (t : List CharCode) : alphaValues (t ++ [c]) = alphaValues t := by
  obtain h | h := h <;> simp [alphaValues, h]

/-- The decoder unit after the symbols `vs` of a message without error (R24, R25, R28, R37). -/
structure DecHolds (vs : List Sym) (d : Dec) : Prop where
  bounded : d.buf.toNat < 2 ^ (5 * d.cnt.val)
  cnt : d.cnt.val = vs.length % 8
  buf : d.buf.toNat = groupValue (partialGroup 8 vs)
  pend : d.pend.length = 5 * (vs.length / 8)

theorem acceptSymbol_decHolds {vs : List Sym} {v : Sym} {s : State} (hs : DecHolds vs s.dec)
    (herr : (acceptSymbol v s).dec.err = false) : DecHolds (vs ++ [v]) (acceptSymbol v s).dec := by
  have hcnt := hs.cnt
  have hpend := hs.pend
  obtain ⟨hseven, heq⟩ | ⟨k, hk, heq⟩ := acceptSymbol_cases v s
  · obtain ⟨-, hgroup⟩ | ⟨-, hgroup⟩ := finishGroup_cases (pushSym s.dec.buf v) s
    · rw [heq, hgroup]
      refine ⟨by simp, ?_, ?_, ?_⟩
      · have hfull : (vs.length + 1) % 8 = 0 := by omega
        simp [hfull]
      · rw [partialGroup_concat_full (by omega)]
        rfl
      · simp only [List.length_append, List.length_singleton, bytesOf_length]
        omega
    · simp [heq, hgroup] at herr
  · have hroom := k.isLt
    rw [heq]
    refine ⟨by simpa [hk] using pushSym_toNat_lt hs.bounded v, ?_, ?_, ?_⟩
    · simp only [List.length_append, List.length_singleton]
      omega
    · rw [partialGroup_concat_short (by omega), groupValue_concat, ← hs.buf]
      exact pushSym_toNat_of_lt hs.bounded (by omega) v
    · simp only [List.length_append, List.length_singleton]
      omega

theorem acceptSymbol_pad (v : Sym) (s : State) : (acceptSymbol v s).dec.pad = s.dec.pad := by
  obtain ⟨-, heq⟩ | ⟨k, -, heq⟩ := acceptSymbol_cases v s
  · obtain ⟨-, hgroup⟩ | ⟨-, hgroup⟩ := finishGroup_cases (pushSym s.dec.buf v) s
    · rw [heq, hgroup]
    · rw [heq, hgroup]
  · rw [heq]

/-- The decoder unit after the characters `t` of a message, unless it has been found malformed
(R24 to R28, R37). -/
def DecHoldsText (t : List CharCode) (d : Dec) : Prop :=
  d.err = false → DecHolds (alphaValues t) d ∧ (d.pad = true ↔ ∃ c ∈ t, classify c = .pad)

theorem decHoldsText_start : DecHoldsText [] Dec.start :=
  fun _ => ⟨⟨by decide, rfl, rfl, rfl⟩, by simp⟩

theorem decChar_decHoldsText {t : List CharCode} {c : CharCode} {s u : State}
    (hs : DecHoldsText t s.dec) (hu : exec (.decChar c) s = .next u) :
    DecHoldsText (t ++ [c]) u.dec := by
  intro herr
  obtain ⟨hexec, hcase⟩ | ⟨hexec, hok, hc⟩ | ⟨hexec, -⟩ | ⟨v, hexec, hok, hnopad, hc⟩ :=
    execDecChar_cases c s
  · obtain rfl := next_unique hu hexec
    have hc : classify c = .ws := hcase.resolve_left (by simp [herr])
    obtain ⟨hholds, hpad⟩ := hs herr
    exact ⟨by rwa [alphaValues_concat_skipped (.inl hc)], by simpa [hc, or_and_right, exists_or] using hpad⟩
  · obtain rfl := next_unique hu hexec
    obtain ⟨⟨hbounded, hcnt, hbuf, hpend⟩, -⟩ := hs hok
    rw [alphaValues_concat_skipped (.inr hc)]
    exact ⟨⟨hbounded, hcnt, hbuf, hpend⟩, by simp [hc, or_and_right, exists_or]⟩
  · obtain rfl := next_unique hu hexec
    cases herr
  · obtain rfl := next_unique hu hexec
    obtain ⟨hholds, hpad⟩ := hs hok
    rw [alphaValues_concat_alpha hc, acceptSymbol_pad]
    exact ⟨acceptSymbol_decHolds hholds herr, by simpa [hc, or_and_right, exists_or] using hpad⟩

/-- Settles O34, character by character. -/
theorem decoderHoldsThePartialGroup : Obligations.DecoderHoldsThePartialGroup := by
  intro t s hs
  obtain ⟨u, hu, hholds⟩ := runCommands_map_keeps (f := Instr.decChar)
    (P := fun t s => DecHoldsText t s.dec) (fun _ _ _ _ => decChar_decHoldsText) t [] s
    (hs ▸ decHoldsText_start)
  refine ⟨u, hu, fun herr => ?_⟩
  obtain ⟨⟨-, hcnt, hbuf, hpend⟩, hpad⟩ := hholds herr
  exact ⟨hcnt, hbuf, hpend, hpad⟩

end Sys2Proof.Machine
end

section
/-!
Lists of commands. Running a list is exec chained through its next states; two commands to different
units commute, a run neither reads nor writes the host's coming actions, and which command overflows
is told by the decoder's partial group and the capacity.
-/

namespace Sys2Proof.Machine

open Sys2Proof.Safety

-- ---------------------------------------------------------------- interleaving

/-- A list runs its first command, then the rest from the state that command answers. -/
theorem runCommands_cons {i : Instr} {s t : State} (h : exec i s = .next t) (is : List Instr) :
    runCommands (i :: is) s = runCommands is t := by
  simp [runCommands, h]

/-- A decoder command and an encoder command commute: the update of each is fixed by its own unit
(R14). -/
theorem exec_dec_enc_commute {i j : Instr} (hi : i.unit = .dec) (hj : j.unit = .enc) (s : State) :
    ∃ u v t, exec i s = .next u ∧ exec j u = .next t ∧ exec j s = .next v ∧ exec i v = .next t := by
  obtain ⟨_, _, _, -, -, -, hdec⟩ := exec_dec_update hi s.dec s.decCap
  obtain ⟨_, _, henc⟩ := exec_enc_update hj s.enc
  exact ⟨_, _, _, hdec s rfl rfl, henc _ rfl, henc s rfl, hdec _ rfl rfl⟩

/-- Two commands to different units may run in either order. -/
theorem runCommands_swap {i j : Instr} (hi : i.unit = .dec) (hj : j.unit = .enc) (is : List Instr)
    (s : State) : runCommands (i :: j :: is) s = runCommands (j :: i :: is) s := by
  obtain ⟨u, v, t, hiu, hjt, hjv, hit⟩ := exec_dec_enc_commute hi hj s
  rw [runCommands_cons hiu, runCommands_cons hjt, runCommands_cons hjv, runCommands_cons hit]

/-- A decoder command commutes with a list of encoder commands. -/
theorem runCommands_dec_past_encs {i : Instr} (hi : i.unit = .dec) (is : List Instr) {es : List Instr}
    (hes : ∀ j ∈ es, j.unit = .enc) (s : State) :
    runCommands (i :: (es ++ is)) s = runCommands (es ++ i :: is) s := by
  induction es generalizing s with
  | nil => rfl
  | cons j es ih =>
    obtain ⟨hj, hrest⟩ := List.forall_mem_cons.mp hes
    obtain ⟨t, ht⟩ := exec_answers j s
    calc runCommands (i :: j :: (es ++ is)) s
        = runCommands (j :: i :: (es ++ is)) s := runCommands_swap hi hj _ s
      _ = runCommands (i :: (es ++ is)) t := runCommands_cons ht _
      _ = runCommands (es ++ i :: is) t := ih hrest t
      _ = runCommands (j :: (es ++ i :: is)) s := (runCommands_cons ht _).symm

/-- Settles O51, by induction over the list: an encoder command stands first on both sides, and a
decoder command is moved past the encoder's commands after it. -/
theorem interleavingChangesNothing : Obligations.InterleavingChangesNothing := by
  intro p s
  induction p generalizing s with
  | nil => rfl
  | cons i p ih =>
    obtain ⟨t, ht⟩ := exec_answers i s
    rw [runCommands_cons ht, ih t, ← runCommands_cons ht]
    cases hi : i.unit with
    | enc => simp [hi]
    | dec =>
      rw [runCommands_dec_past_encs hi _ (by simp)]
      simp [hi]

-- ---------------------------------------------------------------- the items of each command

/-- A valid message's result is at most four bytes longer than its full groups (R106, R111). -/
theorem execDecEnd_items (s : State) :
    ∃ t, execDecEnd s = .next t ∧ t.encOut = s.encOut ∧
      (t.decOut = s.decOut ++ [.endInvalid] ∨
       ∃ bs : List Byte, t.decOut = s.decOut ++ (bs.map .byte ++ [.endValid]) ∧
         bs.length ≤ s.dec.pend.length + 4) := by
  refine ⟨_, rfl, rfl, ?_⟩
  obtain ⟨hresult, -⟩ | ⟨tail, hresult, -, htail⟩ := messageResult_cases s.dec
  · exact .inl (by simp [hresult, resultItems])
  · refine .inr ⟨s.dec.pend ++ tail, by simp [hresult, resultItems], ?_⟩
    simpa using tailBytes_length htail

/-- Settles O31, command by command. -/
theorem itemsEachCommandEmits : Obligations.ItemsEachCommandEmits := by
  intro s
  refine ⟨fun d => ?_, ?_, fun c => ?_, execDecEnd_items s⟩
  · obtain ⟨-, hfull⟩ | ⟨k, -, hheld⟩ := execEncByte_cases d s
    · exact ⟨_, _, hfull, rfl, .inr (groupChars_length _), rfl⟩
    · exact ⟨_, [], hheld, by simp, .inl rfl, rfl⟩
  · refine ⟨_, tailChars s.enc.cnt s.enc.buf, rfl, rfl, ?_, rfl⟩
    rw [tailChars_length]
    split
    · exact .inl rfl
    · exact .inr rfl
  · obtain ⟨t, ht⟩ := exec_answers (.decChar c) s
    obtain ⟨-, hencOut, -, -, -, hdecOut, -⟩ := decoderCommandsFrame _ s t (.inl ⟨c, rfl⟩) ht
    exact ⟨t, ht, hdecOut ⟨c, rfl⟩, hencOut⟩

-- ---------------------------------------------------------------- overflow

theorem runOverflows_cons {i : Instr} {s t : State} (h : exec i s = .next t) (is : List Instr) :
    runOverflows (i :: is) s = (overflowsAt i s || runOverflows is t) := by
  simp [runOverflows, h]

/-- DEC_CHAR overflows only where its symbol completes a group that does not fit (R135). -/
theorem overflowsAt_decChar {c : CharCode} {s : State} (h : overflowsAt (.decChar c) s = true) :
    ∃ v, classify c = .alpha v ∧ s.dec.err = false ∧ s.dec.pad = false ∧ s.dec.cnt.val = 7 ∧
      fits s.decCap (s.dec.pend.length + 5) = false := by
  cases hc : classify c with
  | alpha v => exact ⟨v, rfl, by simpa [overflowsAt, hc, and_assoc] using h⟩
  | ws => simp [overflowsAt, hc] at h
  | pad => simp [overflowsAt, hc] at h
  | other => simp [overflowsAt, hc] at h

theorem symbolCount_append (t u : List CharCode) : symbolCount (t ++ u) = symbolCount t + symbolCount u := by
  simp [symbolCount, alphaValues]

/-- The eighth symbol of a group after the characters `pre` is one of the message's full groups, so
its bytes fit where those of all its full groups do. -/
theorem overflowsAt_eq_false_of_holdsText {pre t : List CharCode} {c : CharCode} {s : State}
    (hs : DecHoldsText pre s.dec)
    (hfits : fits s.decCap (5 * (symbolCount (pre ++ c :: t) / 8)) = true) :
    overflowsAt (.decChar c) s = false := by
  by_contra hover
  obtain ⟨v, hc, herr, -, hseven, hfull⟩ := overflowsAt_decChar (by simpa using hover)
  obtain ⟨⟨-, hcnt, -, hpend⟩, -⟩ := hs herr
  have hone : symbolCount [c] = 1 := by simp [symbolCount, alphaValues, hc]
  have hcount : symbolCount (pre ++ c :: t) = symbolCount pre + (1 + symbolCount t) := by
    rw [symbolCount_append, ← List.singleton_append, symbolCount_append, hone]
  have hpre : symbolCount pre = (alphaValues pre).length := rfl
  have hroom : s.dec.pend.length + 5 ≤ 5 * (symbolCount (pre ++ c :: t) / 8) := by omega
  simp [fits_mono hroom hfits] at hfull

/-- The rest of a message does not overflow a capacity of five bytes for each of its full groups. -/
theorem runOverflows_decStr_eq_false {pre t : List CharCode} {s : State} (hs : DecHoldsText pre s.dec)
    (hfits : fits s.decCap (5 * (symbolCount (pre ++ t) / 8)) = true) :
    runOverflows (decStr t) s = false := by
  induction t generalizing pre s with
  | nil => rfl
  | cons c t ih =>
    obtain ⟨u, hu⟩ := exec_answers (.decChar c) s
    obtain ⟨-, -, hcap, -⟩ := decoderCommandsFrame _ s u (.inl ⟨c, rfl⟩) hu
    have hrest : runOverflows (decStr t) u = false :=
      ih (decChar_decHoldsText hs hu) (by simpa [hcap] using hfits)
    exact (runOverflows_cons hu (decStr t)).trans (by simp [overflowsAt_eq_false_of_holdsText hs hfits, hrest])

/-- Settles O37: the message starts with no character read. -/
theorem enoughCapacityNeverOverflows : Obligations.EnoughCapacityNeverOverflows := by
  intro t s hs hcap
  exact runOverflows_decStr_eq_false (pre := []) (hs ▸ decHoldsText_start) ((fits_iff _ _).mpr hcap)

-- ---------------------------------------------------------------- presented words

/-- A legal word's acceptance is its command (R154). -/
theorem acceptWord_of_legal {w : Word} {i : Instr} (h : decode w = .legal i) (s : State) :
    acceptWord w s = exec i s := by
  simp [acceptWord, h]

/-- Settles O6: the next action is the word's acceptance, and a legal word's is its command. -/
theorem stepRunsTheDecodedCommand : Obligations.StepRunsTheDecodedCommand := by
  intro s w rest hin
  have hstep : step s = acceptWord w { s with input := rest } := step_of_input hin
  exact ⟨hstep, fun i hi => hstep.trans (acceptWord_of_legal hi _)⟩

/-- The word of a command decodes to it: no bit of an operand is dropped (R62 to R65). -/
theorem decode_encode (i : Instr) : decode (encode i) = .legal i := by
  cases i with
  | encByte d => revert d; decide
  | encEnd => decide
  | decChar c =>
    have hop : opField (encode (.decChar c)) = 0x9#4 :=
      (BitVec.extractLsb'_append_eq_of_le (Nat.le_refl 16)).trans (by decide)
    have hoperand : operandField (encode (.decChar c)) = c := by
      simp only [operandField, encode]
      exact BitVec.extractLsb'_append_eq_right
    simp [decode, hop, hoperand]
  | decEnd => decide

/-- A command neither reads nor writes the host's coming actions (R49). -/
theorem exec_presentWords {i : Instr} {s t : State} (ht : exec i s = .next t) (ws : List Word) :
    exec i (presentWords ws s) = .next (presentWords ws t) := by
  cases hi : i.unit with
  | enc =>
    obtain ⟨_, _, hexec⟩ := exec_enc_update hi s.enc
    obtain rfl := next_unique ht (hexec s rfl)
    exact hexec _ rfl
  | dec =>
    obtain ⟨_, _, _, -, -, -, hexec⟩ := exec_dec_update hi s.dec s.decCap
    obtain rfl := next_unique ht (hexec s rfl rfl)
    exact hexec _ rfl rfl

/-- One step with a program's words presented runs its first command, and the rest is still to come
(R49). -/
theorem step_presentWords {i : Instr} {s t : State} (ht : exec i s = .next t) (p : List Instr) :
    step (presentWords (programWords (i :: p)) s) = .next (presentWords (programWords p) t) :=
  calc step (presentWords (programWords (i :: p)) s)
      = acceptWord (encode i) (presentWords (programWords p) s) :=
        step_of_input (e := .cmd (encode i)) (rest := (programWords p).map .cmd ++ s.input) rfl
    _ = exec i (presentWords (programWords p) s) := acceptWord_of_legal (decode_encode i) _
    _ = .next (presentWords (programWords p) t) := exec_presentWords ht _

theorem coreRun_succ {s t : State} (h : step s = .next t) (k : Nat) :
    Host.Core.run core (k + 1) s = Host.Core.run core k t := by
  have hcore : core.step s = .next t := h
  simp [Host.Core.run, hcore]

/-- Settles O52, by induction over the commands: one step for each. -/
theorem steppingAppliesTheCommandsInOrder : Obligations.SteppingAppliesTheCommandsInOrder := by
  intro p s
  induction p generalizing s with
  | nil => rfl
  | cons i p ih =>
    obtain ⟨t, ht⟩ := exec_answers i s
    rw [runCommands_cons ht, ← ih t]
    exact coreRun_succ (step_presentWords ht p) p.length

-- ---------------------------------------------------------------- the alphabet ROM

/-- Settles O24: the 32 entries of the table, one by one. -/
theorem romContents : Obligations.RomContents := by
  unfold Obligations.RomContents
  decide

end Sys2Proof.Machine
end

section
/-!
Command words. The encoder and the decoder are inverse to each other: a legal word is put together
again from the fields the decoder reads, so the legal words are exactly the encodings, and they are
counted by counting the commands.
-/

namespace Sys2Proof.Machine

-- ---------------------------------------------------------------- decode and encode

/-- Settles O1, vector by vector. -/
theorem workedEncodings : Obligations.WorkedEncodings := by
  unfold Obligations.WorkedEncodings
  decide

/-- Settles O2: every operand is well formed by its type, so the round trip holds of every command. -/
theorem decodeOfEncode : Obligations.DecodeOfEncode := fun i _ => decode_encode i

theorem opField_append_operandField (w : Word) : opField w ++ operandField w = w :=
  BitVec.extractLsb'_append_extractLsb'

theorem operandHigh_append_operandLow (w : Word) : operandHigh w ++ operandLow w = operandField w :=
  BitVec.extractLsb'_append_extractLsb'_eq_extractLsb' rfl

/-- What a legal word's fields are, command by command (R62 to R65). -/
theorem decode_legal_cases {w : Word} {i : Instr} (h : decode w = .legal i) :
    (opField w = 0x1 ∧ operandHigh w = 0 ∧ i = .encByte (operandLow w)) ∨
    (opField w = 0x2 ∧ operandField w = 0 ∧ i = .encEnd) ∨
    (opField w = 0x9 ∧ i = .decChar (operandField w)) ∨
    (opField w = 0xA ∧ operandField w = 0 ∧ i = .decEnd) := by
  unfold decode at h
  split_ifs at h with hop1 hhigh hop2 hoperand hop9 hopA hoperand
  · cases h; exact .inl ⟨hop1, hhigh, rfl⟩
  · cases h; exact .inr (.inl ⟨hop2, hoperand, rfl⟩)
  · cases h; exact .inr (.inr (.inl ⟨hop9, rfl⟩))
  · cases h; exact .inr (.inr (.inr ⟨hopA, hoperand, rfl⟩))

/-- A legal word is the encoding of its command: each field of the word is the command's (R68). -/
theorem encode_eq_of_decode {w : Word} {i : Instr} (h : decode w = .legal i) : encode i = w := by
  rw [← opField_append_operandField w]
  obtain ⟨hop, hhigh, rfl⟩ | ⟨hop, hoperand, rfl⟩ | ⟨hop, rfl⟩ | ⟨hop, hoperand, rfl⟩ :=
    decode_legal_cases h
  · rw [hop, ← operandHigh_append_operandLow w, hhigh]
    exact BitVec.append_assoc
  · rw [hop, hoperand]; rfl
  · rw [hop]; rfl
  · rw [hop, hoperand]; rfl

/-- Settles O3. -/
theorem encodeOfDecode : Obligations.EncodeOfDecode := fun _ _ => encode_eq_of_decode

/-- The legal words are the encodings. -/
theorem legal_iff_exists_encode (w : Word) : (∃ i, decode w = .legal i) ↔ ∃ i, encode i = w := by
  constructor
  · rintro ⟨i, hi⟩
    exact ⟨i, encode_eq_of_decode hi⟩
  · rintro ⟨i, rfl⟩
    exact ⟨i, decode_encode i⟩

-- ---------------------------------------------------------------- the opcode table

/-- The family of statements about the commands' words, for every command. -/
theorem encodedWord_statement (i : Instr) : Laws.EncodedWord.Statement i := by
  cases i with
  | encByte d => exact Laws.EncodedWord.encByte d
  | encEnd => exact Laws.EncodedWord.encEnd
  | decChar c => exact Laws.EncodedWord.decChar c
  | decEnd => exact Laws.EncodedWord.decEnd

/-- The word of a command is of its row of the table (R62 to R65). -/
theorem wordWellFormed_encode (i : Instr) : wordWellFormed (encode i) = true := by
  obtain ⟨-, -, hrow⟩ := encodedWord_statement i
  exact hrow

/-- The decoder accepts a word exactly when it is of a row of the table (R68). -/
theorem legal_iff_wordWellFormed (w : Word) : (∃ i, decode w = .legal i) ↔ wordWellFormed w = true := by
  refine ⟨fun hlegal => ?_, decode_legal_of_wellFormed⟩
  obtain ⟨i, rfl⟩ := (legal_iff_exists_encode w).mp hlegal
  exact wordWellFormed_encode i

/-- Settles O4: the four pairs are the rows of the table. -/
theorem legalWordsMatchTheTable : Obligations.LegalWordsMatchTheTable := by
  intro w
  rw [legal_iff_wordWellFormed]
  simp [wordWellFormed, opcodeTable, OpcodeRow.covers]

-- ---------------------------------------------------------------- the number of legal words

/-- All bit vectors of a width. -/
def allBitVecs (n : Nat) : List (BitVec n) := (List.finRange (2 ^ n)).map BitVec.ofFin

theorem allBitVecs_length (n : Nat) : (allBitVecs n).length = 2 ^ n := by simp [allBitVecs]

theorem mem_allBitVecs {n : Nat} (x : BitVec n) : x ∈ allBitVecs n :=
  List.mem_map.mpr ⟨x.toFin, List.mem_finRange _, rfl⟩

theorem allBitVecs_nodup (n : Nat) : (allBitVecs n).Nodup :=
  (List.nodup_finRange _).map fun _ _ h => BitVec.ofFin.inj h

/-- The commands with operands from these two lists, and the two end commands (R61). -/
def commandsOver (ds : List Byte) (cs : List CharCode) : List Instr :=
  ds.map .encByte ++ cs.map .decChar ++ [.encEnd, .decEnd]

theorem commandsOver_length (ds : List Byte) (cs : List CharCode) :
    (commandsOver ds cs).length = ds.length + cs.length + 2 := by
  simp [commandsOver, Nat.add_assoc]

theorem commandsOver_nodup {ds : List Byte} {cs : List CharCode} (hds : ds.Nodup) (hcs : cs.Nodup) :
    (commandsOver ds cs).Nodup := by
  have hbytes : (ds.map Instr.encByte).Nodup := hds.map fun _ _ h => Instr.encByte.inj h
  have hchars : (cs.map Instr.decChar).Nodup := hcs.map fun _ _ h => Instr.decChar.inj h
  have hdata : (ds.map Instr.encByte).Disjoint (cs.map Instr.decChar) := by simp [List.Disjoint]
  have hends : (ds.map Instr.encByte ++ cs.map Instr.decChar).Disjoint [.encEnd, .decEnd] := by
    simp [List.disjoint_cons_right]
  exact (hbytes.append hchars hdata).append (by decide) hends

theorem mem_commandsOver {ds : List Byte} {cs : List CharCode} (hds : ∀ d, d ∈ ds) (hcs : ∀ c, c ∈ cs)
    (i : Instr) : i ∈ commandsOver ds cs := by
  cases i with
  | encByte d => simp [commandsOver, hds]
  | encEnd => simp [commandsOver]
  | decChar c => simp [commandsOver, hcs]
  | decEnd => simp [commandsOver]

theorem encode_injective : Function.Injective encode := fun i j h =>
  Decoded.legal.inj ((decode_encode i).symm.trans ((congrArg decode h).trans (decode_encode j)))

/-- Settles O5: the list is the encodings of all commands, and the operands of 8 and 16 bits give the
count. -/
theorem legalWordCount : Obligations.LegalWordCount := by
  have hnodup := commandsOver_nodup (allBitVecs_nodup 8) (allBitVecs_nodup 16)
  refine ⟨(commandsOver (allBitVecs 8) (allBitVecs 16)).map encode, hnodup.map encode_injective, ?_,
    fun w => ?_⟩
  · rw [List.length_map, commandsOver_length, allBitVecs_length, allBitVecs_length]
    norm_num
  · simp [legal_iff_exists_encode, mem_commandsOver, mem_allBitVecs]

end Sys2Proof.Machine
end

section
/-!
The host's side: the code presented for a character, and the assembler on lines of one mnemonic and
one operand. A line's mnemonic is cut off once for all, a run of digits has its positional value, and
each statement is then its operand's range check.
-/

namespace Sys2Proof.Machine

-- ---------------------------------------------------------------- characters and operand values

/-- Settles O54: 0xFFFF is of class OTHER, and a code of at most 16 bits is not truncated. -/
theorem wideCharactersClassifyOther : Obligations.WideCharactersClassifyOther := by
  intro code
  constructor
  · intro hwide
    rw [presentChar, if_neg (by omega)]
    decide
  · intro hfits
    rw [presentChar, if_pos hfits, BitVec.toNat_ofNat]
    exact Nat.mod_eq_of_lt (by omega)

theorem encByteOf_of_le {v : Nat} (h : v ≤ 255) :
    encByteOf v = .ok (.encByte (BitVec.ofNat 8 v)) :=
  if_pos h

theorem encByteOf_of_gt {v : Nat} (h : 255 < v) : encByteOf v = .error .range :=
  if_neg (by omega)

theorem decCharOf_of_le {v : Nat} (h : v ≤ 65535) :
    decCharOf v = .ok (.decChar (BitVec.ofNat 16 v)) :=
  if_pos h

theorem decCharOf_of_gt {v : Nat} (h : 65535 < v) : decCharOf v = .error .range :=
  if_neg (by omega)

/-- Settles O55. -/
theorem operandRangeChecks : Obligations.OperandRangeChecks := fun _ =>
  ⟨encByteOf_of_le, encByteOf_of_gt, decCharOf_of_le, decCharOf_of_gt⟩

-- ---------------------------------------------------------------- a line's mnemonic

@[simp] theorem isBlank_space : isBlank 32 = true := by decide

@[simp] theorem isNameCode_space : isNameCode 32 = false := by decide

/-- A name code is no blank and begins no comment. -/
theorem not_isBlank_of_isNameCode {c : Nat} (h : isNameCode c = true) : isBlank c = false ∧ c ≠ 59 := by
  simp only [isNameCode, Bool.or_eq_true, Bool.and_eq_true, decide_eq_true_eq, beq_iff_eq] at h
  simp only [isBlank, Bool.or_eq_false_iff, beq_eq_false_iff_ne]
  omega

@[simp] theorem skipBlanks_nil : skipBlanks [] = [] := rfl

@[simp] theorem skipBlanks_space (t : List Nat) : skipBlanks (32 :: t) = skipBlanks t := by simp [skipBlanks]

theorem skipBlanks_of_isNameCode {c : Nat} (h : isNameCode c = true) (t : List Nat) :
    skipBlanks (c :: t) = c :: t := by
  simp [skipBlanks, (not_isBlank_of_isNameCode h).1]

@[simp] theorem lineEnd_nil (is : List Instr) : lineEnd [] is = .ok is := rfl

/-- A line's mnemonic is its first run of name codes (R71). -/
theorem assembleLine_of_name {name : List Nat} (hne : name ≠ [])
    (hname : ∀ c ∈ name, isNameCode c = true) (t : List Nat) :
    assembleLine (name ++ 32 :: t) = assembleStatement name (32 :: t) := by
  obtain ⟨c, name, rfl⟩ := List.exists_cons_of_ne_nil hne
  have hc : isNameCode c = true := hname c (by simp)
  have htake := List.takeWhile_append_of_pos hname (l₂ := 32 :: t)
  have hdrop := List.dropWhile_append_of_pos hname (l₂ := 32 :: t)
  simp only [List.cons_append] at htake hdrop
  simp [assembleLine, skipBlanks_of_isNameCode hc, (not_isBlank_of_isNameCode hc).2, htake, hdrop]

-- ---------------------------------------------------------------- DEC_STR

/-- A string without quote and backslash is its characters, one by one (R72). -/
theorem stringBody_plain {cs : List Nat} (h : ∀ c ∈ cs, c ≤ 65535 ∧ c ≠ 34 ∧ c ≠ 92) :
    stringBody (cs ++ [34]) = .ok (cs.map (fun c => .decChar (BitVec.ofNat 16 c)), []) := by
  induction cs with
  | nil => simp [stringBody]
  | cons c cs ih =>
    obtain ⟨⟨hrange, hquote, hescape⟩, hrest⟩ := List.forall_mem_cons.mp h
    simp [stringBody, hescape, decCharOf_of_le hrange, ih hrest]

/-- Settles O56. -/
theorem decStrLineExpands : Obligations.DecStrLineExpands := by
  intro cs hcs
  have hline : codesOf "DEC_STR" ++ [32, 34] ++ cs ++ [34] =
      codesOf "DEC_STR" ++ 32 :: 34 :: (cs ++ [34]) := by simp
  have hquote : skipBlanks (34 :: (cs ++ [34])) = 34 :: (cs ++ [34]) := by simp [skipBlanks, isBlank]
  rw [hline, assembleLine_of_name (by decide) (by decide), assembleStatement,
    if_neg (by decide), if_neg (by decide), if_neg (by decide), if_neg (by decide), if_neg (by decide),
    if_pos rfl, skipBlanks_space, hquote]
  simp [stringBody_plain hcs]

-- ---------------------------------------------------------------- numbers

/-- The digits of a number in this base, as R71 has them: `0`..`9`, and for base 16 letters. -/
abbrev IsDigit (base c : Nat) : Prop :=
  (48 ≤ c ∧ c ≤ 57) ∨ (base = 16 ∧ ((65 ≤ c ∧ c ≤ 70) ∨ (97 ≤ c ∧ c ≤ 102)))

/-- The value of a digit of a number. -/
abbrev digit (c : Nat) : Nat := if c ≤ 57 then c - 48 else if c ≤ 70 then c - 55 else c - 87

/-- The positional value of a run of digits, after `acc`. -/
abbrev positional (base : Nat) (ds : List Nat) (acc : Nat) : Nat :=
  ds.foldl (fun acc c => acc * base + digit c) acc

theorem isNameCode_of_isDigit {base c : Nat} (h : IsDigit base c) : isNameCode c = true := by
  simp only [isNameCode, Bool.or_eq_true, Bool.and_eq_true, decide_eq_true_eq, beq_iff_eq]
  omega

theorem digitValue_of_isDigit {base c : Nat} (hbase : base = 10 ∨ base = 16) (h : IsDigit base c) :
    digitValue base c = some (digit c) := by
  have hlt : digit c < base := by unfold digit; split_ifs <;> omega
  obtain hdec | ⟨-, hupper | hlower⟩ := h
  · simp only [digitValue, digit, if_pos hdec, if_pos hdec.2] at hlt ⊢
    exact if_pos hlt
  · have hge : ¬ c ≤ 57 := by omega
    simp only [digitValue, digit, hge, and_false, if_false, if_pos hupper, if_pos hupper.2] at hlt ⊢
    exact if_pos hlt
  · have hge : ¬ c ≤ 57 ∧ ¬ c ≤ 70 := by omega
    simp only [digitValue, digit, hge, and_false, if_false, if_pos hlower] at hlt ⊢
    exact if_pos hlt

theorem digitsValue_of_isDigit {base : Nat} (hbase : base = 10 ∨ base = 16) {ds : List Nat}
    (h : ∀ c ∈ ds, IsDigit base c) (acc : Nat) :
    digitsValue base ds acc = some (positional base ds acc) := by
  induction ds generalizing acc with
  | nil => rfl
  | cons c ds ih =>
    obtain ⟨hc, hrest⟩ := List.forall_mem_cons.mp h
    simp [digitsValue, digitValue_of_isDigit hbase hc, ih hrest]

/-- A decimal number, or a hexadecimal one after `0x`: its codes and its value (R71). -/
structure IsNumber (t : List Nat) (value : Nat) : Prop where
  ne_nil : t ≠ []
  names : ∀ c ∈ t, isNameCode c = true
  value_eq : numberValue t = some value

theorem numberValue_decimal {ds : List Nat} (hne : ds ≠ []) (h : ∀ c ∈ ds, IsDigit 10 c) :
    numberValue ds = some (positional 10 ds 0) := by
  rw [← digitsValue_of_isDigit (.inl rfl) h]
  unfold numberValue
  split
  · exact absurd rfl hne
  · exact absurd (h 120 (by simp)) (by decide)
  · exact absurd (h 120 (by simp)) (by decide)
  · rfl

theorem numberValue_hex {ds : List Nat} (hne : ds ≠ []) (h : ∀ c ∈ ds, IsDigit 16 c) :
    numberValue (48 :: 120 :: ds) = some (positional 16 ds 0) := by
  simp [numberValue, digitsValue_of_isDigit (.inr rfl) h]

theorem isNumber_decimal {ds : List Nat} (hne : ds ≠ []) (h : ∀ c ∈ ds, IsDigit 10 c) :
    IsNumber ds (positional 10 ds 0) :=
  ⟨hne, fun c hc => isNameCode_of_isDigit (h c hc), numberValue_decimal hne h⟩

theorem isNumber_hex {ds : List Nat} (hne : ds ≠ []) (h : ∀ c ∈ ds, IsDigit 16 c) :
    IsNumber (48 :: 120 :: ds) (positional 16 ds 0) where
  ne_nil := by simp
  names := by
    simp only [List.forall_mem_cons]
    exact ⟨by decide, by decide, fun c hc => isNameCode_of_isDigit (h c hc)⟩
  value_eq := numberValue_hex hne h

/-- A number begins with a name code, so no blank, quote or comment. -/
theorem IsNumber.exists_cons {t : List Nat} {value : Nat} (h : IsNumber t value) :
    ∃ c r, t = c :: r ∧ isNameCode c = true := by
  obtain ⟨c, r, rfl⟩ := List.exists_cons_of_ne_nil h.ne_nil
  exact ⟨c, r, rfl, h.names c (by simp)⟩

theorem IsNumber.skipBlanks_eq {t : List Nat} {value : Nat} (h : IsNumber t value) : skipBlanks t = t := by
  obtain ⟨c, r, rfl, hc⟩ := h.exists_cons
  exact skipBlanks_of_isNameCode hc r

theorem operandValue_space (t : List Nat) : operandValue (32 :: t) = operandValue t := by
  simp [operandValue]

/-- A number is read to its end. -/
theorem operandValue_number {t : List Nat} {value : Nat} (h : IsNumber t value) :
    operandValue t = .ok (value, []) := by
  have htake : t.takeWhile isNameCode = t := List.takeWhile_eq_self_iff.mpr h.names
  have hdrop : t.dropWhile isNameCode = [] := List.dropWhile_eq_nil_iff.mpr h.names
  have hquote : ∀ r, t ≠ 39 :: r := by
    rintro r rfl
    exact absurd (h.names 39 (by simp)) (by decide)
  simp [operandValue, h.skipBlanks_eq, htake, hdrop, h.value_eq]

/-- One number in range is ENC_MSG's whole list of operands. -/
theorem encMsgOperands_number_of_le {t : List Nat} {value : Nat} (h : IsNumber t value) (hv : value ≤ 255) :
    encMsgOperands t.length t = .ok ([.encByte (BitVec.ofNat 8 value)], []) := by
  obtain ⟨c, r, rfl, -⟩ := h.exists_cons
  simp [encMsgOperands, operandValue_number h, encByteOf_of_le hv]

theorem encMsgOperands_number_of_gt {t : List Nat} {value : Nat} (h : IsNumber t value) (hv : 255 < value) :
    encMsgOperands t.length t = .error .range := by
  obtain ⟨c, r, rfl, -⟩ := h.exists_cons
  simp [encMsgOperands, operandValue_number h, encByteOf_of_gt hv]

-- ---------------------------------------------------------------- the three lines

theorem assembleLine_encByte_number {t : List Nat} {value : Nat} (h : IsNumber t value) :
    assembleLine (codesOf "ENC_BYTE" ++ 32 :: t) =
      if value ≤ 255 then .ok [.encByte (BitVec.ofNat 8 value)] else .error .range := by
  rw [assembleLine_of_name (by decide) (by decide), assembleStatement, if_pos rfl,
    operandValue_space, operandValue_number h]
  split_ifs with hv
  · simp [encByteOf_of_le hv]
  · simp [encByteOf_of_gt (not_le.mp hv)]

theorem assembleLine_decChar_number {t : List Nat} {value : Nat} (h : IsNumber t value) :
    assembleLine (codesOf "DEC_CHAR" ++ 32 :: t) =
      if value ≤ 65535 then .ok [.decChar (BitVec.ofNat 16 value)] else .error .range := by
  rw [assembleLine_of_name (by decide) (by decide), assembleStatement, if_neg (by decide),
    if_pos rfl, operandValue_space, operandValue_number h]
  split_ifs with hv
  · simp [decCharOf_of_le hv]
  · simp [decCharOf_of_gt (not_le.mp hv)]

theorem assembleLine_encMsg_number {t : List Nat} {value : Nat} (h : IsNumber t value) :
    assembleLine (codesOf "ENC_MSG" ++ 32 :: t) =
      if value ≤ 255 then .ok [.encByte (BitVec.ofNat 8 value), .encEnd] else .error .range := by
  rw [assembleLine_of_name (by decide) (by decide), assembleStatement,
    if_neg (by decide), if_neg (by decide), if_neg (by decide), if_neg (by decide),
    if_pos rfl, skipBlanks_space, h.skipBlanks_eq]
  have hne := h.ne_nil
  have hcomment : ∀ r, t ≠ 59 :: r := by
    rintro r rfl
    exact absurd (h.names 59 (by simp)) (by decide)
  split_ifs with hv
  · simp [encMsgOperands_number_of_le h hv]
  · simp [encMsgOperands_number_of_gt h (not_le.mp hv)]

/-- Settles O57: each row's operand is a number, and each line its number's range check. -/
theorem numberOperandLines : Obligations.NumberOperandLines := by
  intro row hrow ds hne hds value operand
  have hnumber : IsNumber (row.2 ++ ds) value := by
    simp only [List.mem_cons, List.not_mem_nil, or_false] at hrow
    obtain rfl | rfl := hrow
    · exact isNumber_decimal hne hds
    · exact isNumber_hex hne hds
  exact ⟨assembleLine_encByte_number hnumber, assembleLine_decChar_number hnumber,
    assembleLine_encMsg_number hnumber⟩

end Sys2Proof.Machine
end

section
/-!
The encoder's whole message. Up to four bytes are held in the buffer in order, a fifth completes a
group; the characters of a full group and of a tail are read off the concatenation of its bytes.
-/

namespace Sys2Proof.Machine

-- ---------------------------------------------------------------- bytes held as a concatenation

/-- Shifting a byte into the buffer appends its bits (R84). -/
theorem pushByte_setWidth {n : Nat} (x : BitVec n) (d : Byte) :
    pushByte (x.setWidth 40) d = (x ++ d).setWidth 40 :=
  BitVec.setWidth_append_eq_shiftLeft_setWidth_or.symm

/-- The tail's shift appends zero bits (R82). -/
theorem setWidth_shiftLeft {n : Nat} (x : BitVec n) (sh : Nat) :
    x.setWidth 40 <<< sh = (x ++ 0#sh).setWidth 40 := by
  simp [BitVec.setWidth_append_eq_shiftLeft_setWidth_or]

theorem packBytes_cons (d : Byte) (ds : List Byte) :
    packBytes (d :: ds) = ds.foldl pushByte (d.setWidth 40) := by
  simp [packBytes, pushByte]

/-- The characters of a full group are slices of its five bytes (R81). -/
theorem groupChars_packBytes (d0 d1 d2 d3 d4 : Byte) :
    groupChars (packBytes [d0, d1, d2, d3, d4]) = refGroup d0 d1 d2 d3 d4 := by
  simp only [packBytes_cons, List.foldl, pushByte_setWidth]
  simp [groupChars, symbolsOf, refGroup]

/-- A slice of a concatenation: of its left part, of its right part, or of both. (`no_index`: the
library's lemma of this statement is not found by `simp` where the widths are literals.) -/
theorem extractLsb'_append {v w : Nat} (hi : BitVec v) (lo : BitVec w) (start len : Nat) :
    BitVec.extractLsb' start len (no_index (hi ++ lo)) =
      if hstart : start < w then
        if hlen : start + len ≤ w then lo.extractLsb' start len
        else
          (hi.extractLsb' (start - w) (len - (w - start)) ++ lo.extractLsb' start (w - start)).cast (by omega)
      else hi.extractLsb' (start - w) len :=
  BitVec.extractLsb'_append_eq_ite

/-- The characters of a tail are slices of its bytes with zero bits appended, and padding (R82). -/
theorem tailChars_packBytes {ds : List Byte} (h : ds.length ≤ 4) :
    tailChars (Fin.ofNat 5 ds.length) (packBytes ds) = refTail ds := by
  match ds, h with
  | [], _ => rfl
  | [_], _ | [_, _], _ | [_, _, _], _ | [_, _, _, _], _ =>
    simp [packBytes_cons, pushByte_setWidth, tailChars, encTail, setWidth_shiftLeft, symbolsOf, refTail,
      BitVec.extractLsb'_setWidth_of_le, extractLsb'_append]

-- ---------------------------------------------------------------- running the bytes of a message

/-- A list of commands runs its first part, then the rest from the state that part answers. -/
theorem runCommands_append {p : List Instr} {s t : State} (h : runCommands p s = .next t) (q : List Instr) :
    runCommands (p ++ q) s = runCommands q t := by
  induction p generalizing s with
  | nil => cases h; rfl
  | cons i p ih =>
    obtain ⟨u, hu⟩ := exec_answers i s
    rw [runCommands_cons hu] at h
    rw [List.cons_append, runCommands_cons hu, ih h]

theorem runCommands_singleton (i : Instr) (s : State) : runCommands [i] s = exec i s := by
  obtain ⟨t, ht⟩ := exec_answers i s
  rw [runCommands_cons ht, ht]
  rfl

theorem packBytes_concat (ds : List Byte) (d : Byte) : packBytes (ds ++ [d]) = pushByte (packBytes ds) d := by
  simp [packBytes]

/-- Up to four bytes of a message are held in the buffer (R21, R22, R84). -/
theorem runCommands_encBytes_held {ds : List Byte} (h : ds.length ≤ 4) {s : State}
    (hs : s.enc = Enc.start) :
    runCommands (ds.map .encByte) s =
      .next { s with enc := { buf := packBytes ds, cnt := Fin.ofNat 5 ds.length } } := by
  induction ds using List.reverseRecOn with
  | nil =>
    obtain ⟨enc, dec, fault, encOut, decOut, decCap, input⟩ := s
    cases hs
    rfl
  | append_singleton ds d ih =>
    simp only [List.length_append, List.length_singleton] at h
    rw [List.map_append, runCommands_append (ih (by omega)), List.map_singleton, runCommands_singleton]
    obtain ⟨hfour, -⟩ | ⟨k, hk, hexec⟩ := execEncByte_cases d
      { s with enc := { buf := packBytes ds, cnt := Fin.ofNat 5 ds.length } }
    · simp only [Fin.ofNat] at hfour
      omega
    · have hcnt : Fin.ofNat 5 (ds.length + 1) = k := by
        simp only [Fin.ofNat] at hk
        exact Fin.ext (show (ds.length + 1) % 5 = k.val by omega)
      exact hexec.trans (by rw [packBytes_concat, List.length_append, List.length_singleton, hcnt])

/-- Five bytes of a message emit the characters of their group, and none is held (R81, R84). -/
theorem runCommands_encBytes_group (d0 d1 d2 d3 d4 : Byte) {s : State} (hs : s.enc = Enc.start) :
    runCommands ([d0, d1, d2, d3, d4].map .encByte) s =
      .next { s with encOut := s.encOut ++ (refGroup d0 d1 d2 d3 d4).map .chr } := by
  have hfour := runCommands_encBytes_held (ds := [d0, d1, d2, d3]) (by simp) hs
  rw [show [d0, d1, d2, d3, d4] = [d0, d1, d2, d3] ++ [d4] from rfl, List.map_append,
    runCommands_append hfour, List.map_singleton, runCommands_singleton, ← groupChars_packBytes, hs]
  rfl

/-- ENC_MSG from the start of a message appends `Encode(b)` and `EndMsg`, group by group and then the
tail (R91). -/
theorem runCommands_encMsg (b : List Byte) {s : State} (hs : s.enc = Enc.start) :
    runCommands (encMsg b) s = .next { s with encOut := s.encOut ++ messageItems (refEncode b) } := by
  induction b using refEncode.induct generalizing s with
  | case1 d0 d1 d2 d3 d4 rest ih =>
    have hgroup := runCommands_encBytes_group d0 d1 d2 d3 d4 hs
    rw [show encMsg (d0 :: d1 :: d2 :: d3 :: d4 :: rest) =
      [d0, d1, d2, d3, d4].map .encByte ++ encMsg rest from rfl, runCommands_append hgroup]
    refine (ih ?_).trans ?_
    · exact hs
    · simp [refEncode, messageItems]
  | case2 tail htail =>
    have hshort : tail.length ≤ 4 := by
      match tail, htail with
      | [], _ | [_], _ | [_, _], _ | [_, _, _], _ | [_, _, _, _], _ => simp
      | d0 :: d1 :: d2 :: d3 :: d4 :: rest, htail => exact absurd rfl (htail d0 d1 d2 d3 d4 rest)
    rw [encMsg, runCommands_append (runCommands_encBytes_held hshort hs), runCommands_singleton,
      refEncode.eq_2 tail htail, ← tailChars_packBytes hshort, hs]
    rfl

end Sys2Proof.Machine
end

section
/-!
The decoder's whole message. A decoder unit without error holds the running values of the reference's
forward scan. The reference strips the trailing `=` and whitespace first; the decoder meets the same
characters last, where they change nothing of the result, and a `=` before another character marks
the message once that character comes.
-/

namespace Sys2Proof.Machine

open Sys2Proof.Safety

-- ---------------------------------------------------------------- overflow in the parts of a list

/-- A list of commands overflows in its first part, or in the rest from the state that part answers. -/
theorem runOverflows_append {p : List Instr} {s t : State} (h : runCommands p s = .next t) (q : List Instr) :
    runOverflows (p ++ q) s = (runOverflows p s || runOverflows q t) := by
  induction p generalizing s with
  | nil => cases h; rfl
  | cons i p ih =>
    obtain ⟨u, hu⟩ := exec_answers i s
    rw [runCommands_cons hu] at h
    rw [List.cons_append, runOverflows_cons hu, runOverflows_cons hu, ih h, Bool.or_assoc]

theorem runCommands_answers (p : List Instr) (s : State) : Answers (runCommands p s) := by
  induction p generalizing s with
  | nil => exact ⟨s, rfl⟩
  | cons i p ih =>
    obtain ⟨u, hu⟩ := exec_answers i s
    exact runCommands_cons hu p ▸ ih u

theorem runOverflows_left {p q : List Instr} {s : State} (h : runOverflows (p ++ q) s = false) :
    runOverflows p s = false := by
  obtain ⟨t, ht⟩ := runCommands_answers p s
  rw [runOverflows_append ht, Bool.or_eq_false_iff] at h
  exact h.1

-- ---------------------------------------------------------------- the scan's values in the unit

/-- The decoder unit of a message without error that holds the values of a forward scan. -/
def Scan.dec (a : Scan) : Dec :=
  { buf := a.w, cnt := Fin.ofNat 8 a.inCount, pad := false, err := false, pend := a.out }

theorem extractLsb'_ushiftRight {w : Nat} (x : BitVec w) (n start len : Nat) :
    (x >>> n).extractLsb' start len = x.extractLsb' (n + start) len := by
  ext i hi
  simp [Nat.add_assoc]

/-- DEC_END's result on a scan's values is the reference's tail policy (R106, R111). -/
theorem messageResult_scanDec (a : Scan) : messageResult a.dec = tailPolicy a := by
  have hlt : a.inCount % 8 < 8 := Nat.mod_lt _ (by decide)
  have hcnt : a.dec.cnt = ⟨a.inCount % 8, hlt⟩ := rfl
  unfold messageResult tailPolicy
  rw [hcnt]
  generalize a.inCount % 8 = m at hlt
  interval_cases m <;>
    simp [Scan.dec, tailBytes, decTail, bytesOf, extractLsb'_ushiftRight]

/-- The scan's eighth symbol of a group empties the unit's buffer into its pending bytes (R107, R110). -/
theorem scanSymbol_dec_full {a : Scan} (h : a.inCount % 8 = 7) (v : Sym) :
    (scanSymbol a v).dec =
      { a.dec with buf := 0, cnt := 0, pend := a.dec.pend ++ bytesOf 5 (pushSym a.dec.buf v) } := by
  have hmod : (a.inCount + 1) % 8 = 0 := by omega
  simp [Scan.dec, scanSymbol, hmod, bytesOf, Fin.ofNat]

/-- Any other symbol of the scan joins the unit's buffer (R107, R110). -/
theorem scanSymbol_dec_short {a : Scan} {k : Fin 8} (h : k.val = a.inCount % 8 + 1) (v : Sym) :
    (scanSymbol a v).dec = { a.dec with buf := pushSym a.dec.buf v, cnt := k } := by
  have hroom := k.isLt
  have hmod : ¬ (a.inCount + 1) % 8 = 0 := by omega
  have hcnt : Fin.ofNat 8 (a.inCount + 1) = k := Fin.ext (show (a.inCount + 1) % 8 = k.val by omega)
  simp only [Scan.dec, scanSymbol, hmod, if_false, hcnt]

/-- Without an overflow an alphabet character gives the unit the scan's next values (R105, R110). -/
theorem exec_decChar_scan {a : Scan} {c : CharCode} {v : Sym} {s : State} (hs : s.dec = a.dec)
    (hc : classify c = .alpha v) (hover : overflowsAt (.decChar c) s = false) :
    exec (.decChar c) s = .next { s with dec := (scanSymbol a v).dec } := by
  have hexec : exec (.decChar c) s = .next (acceptSymbol v s) := by
    simp [exec, execDecChar, hs, hc, Scan.dec]
  have hcnt : s.dec.cnt.val = a.inCount % 8 := by rw [hs]; rfl
  rw [hexec]
  obtain ⟨hseven, heq⟩ | ⟨k, hk, heq⟩ := acceptSymbol_cases v s
  · obtain ⟨-, hgroup⟩ | ⟨hfull, -⟩ := finishGroup_cases (pushSym s.dec.buf v) s
    · rw [heq, hgroup, scanSymbol_dec_full (hcnt ▸ hseven), hs]
    · have herr : s.dec.err = false := by rw [hs]; rfl
      have hpad : s.dec.pad = false := by rw [hs]; rfl
      simp [overflowsAt, hc, herr, hpad, hseven, hfull] at hover
  · rw [heq, scanSymbol_dec_short (hcnt ▸ hk), hs]

-- ---------------------------------------------------------------- the body of a message

theorem isStrip_iff (c : CharCode) : isStrip c = true ↔ classify c = .ws ∨ classify c = .pad := by
  cases h : classify c <;> simp [isStrip, h]

/-- After a run from `s` the unit is in a state `d` with the property `P`, and nothing else has
changed. -/
def DecRuns (p : List Instr) (s : State) (P : Dec → Prop) : Prop :=
  ∃ d, runCommands p s = .next { s with dec := d } ∧ P d

theorem decRuns_nil {s : State} {P : Dec → Prop} (h : P s.dec) : DecRuns [] s P := ⟨s.dec, rfl, h⟩

theorem decRuns_cons {i : Instr} {p : List Instr} {s : State} {d : Dec} {P : Dec → Prop}
    (hexec : exec i s = .next { s with dec := d }) (h : DecRuns p { s with dec := d } P) :
    DecRuns (i :: p) s P := by
  obtain ⟨d', hrun, hP⟩ := h
  exact ⟨d', (runCommands_cons hexec p).trans hrun, hP⟩

/-- A malformed message stays so; and a `=` before a character that is not stripped makes the message
malformed (R113, R114). -/
theorem decRuns_err {t : List CharCode} {s : State}
    (h : s.dec.err = true ∨ s.dec.pad = true ∧ ∃ c ∈ t, isStrip c = false) :
    DecRuns (t.map .decChar) s (fun d => d.err = true) := by
  induction t generalizing s with
  | nil => exact decRuns_nil (h.resolve_right (by simp))
  | cons c t ih =>
    obtain ⟨hexec, hcase⟩ | ⟨hexec, hok, hc⟩ | ⟨hexec, -⟩ | ⟨v, hexec, hok, hnopad, -⟩ :=
      execDecChar_cases c s
    · have hskip : s.dec.err = true ∨ isStrip c = true :=
        hcase.imp_right fun hws => (isStrip_iff c).mpr (.inl hws)
      refine decRuns_cons hexec (ih ?_)
      obtain herr | ⟨hpad, hrest⟩ := h
      · exact .inl herr
      · exact hskip.imp_right fun hstrip => ⟨hpad, by simpa [hstrip] using hrest⟩
    · have hstrip : isStrip c = true := (isStrip_iff c).mpr (.inr hc)
      have hrest : ∃ c ∈ t, isStrip c = false := by
        simpa [hok, hstrip] using (h.resolve_left (by simp [hok])).2
      exact decRuns_cons hexec (ih (.inr ⟨rfl, hrest⟩))
    · exact decRuns_cons hexec (ih (.inl rfl))
    · simp [hok, hnopad] at h

/-- The unit after a text the scan has read to its end, or has rejected. -/
def HoldsScan : Option Scan → Dec → Prop
  | none, d => d.err = true
  | some a, d => d = a.dec

/-- A character gives the unit and the scan the same next values, or the scan rejects it and the unit
marks the message. -/
theorem exec_decChar_scanForward {a : Scan} {c : CharCode} {s : State} (hs : s.dec = a.dec)
    (hover : overflowsAt (.decChar c) s = false) :
    (∃ a' : Scan, exec (.decChar c) s = .next { s with dec := a'.dec } ∧
      ∀ t, scanForward (c :: t) a = scanForward t a') ∨
    ((∀ t, scanForward (c :: t) a = none) ∧
      (exec (.decChar c) s = .next (markErr s) ∨
        isStrip c = true ∧ exec (.decChar c) s = .next (markPad s))) := by
  have herr : s.dec.err = false := by rw [hs]; rfl
  cases hc : classify c with
  | alpha v =>
    exact .inl ⟨scanSymbol a v, exec_decChar_scan hs hc hover, fun t => by simp [scanForward, hc]⟩
  | ws => exact .inl ⟨a, by simp [exec, execDecChar, hc, ← hs], fun t => by simp [scanForward, hc]⟩
  | pad =>
    exact .inr ⟨fun t => by simp [scanForward, hc],
      .inr ⟨by simp [isStrip, hc], by simp [exec, execDecChar, hc, herr]⟩⟩
  | other =>
    exact .inr ⟨fun t => by simp [scanForward, hc], .inl (by simp [exec, execDecChar, hc, herr])⟩

/-- A text that does not end in a stripped character leaves the unit as the forward scan of it says,
where no command overflows (R107, R110, R114). -/
theorem decRuns_scanForward {t : List CharCode} {a : Scan} {s : State} (hs : s.dec = a.dec)
    (hlast : ∀ h : t ≠ [], ¬ isStrip (t.getLast h) = true)
    (hover : runOverflows (t.map .decChar) s = false) :
    DecRuns (t.map .decChar) s (HoldsScan (scanForward t a)) := by
  induction t generalizing a s with
  | nil => exact decRuns_nil hs
  | cons c t ih =>
    obtain ⟨u, hu⟩ := exec_answers (.decChar c) s
    rw [List.map_cons, runOverflows_cons hu, Bool.or_eq_false_iff] at hover
    obtain ⟨hhere, hrest⟩ := hover
    obtain ⟨a', hexec, hscan⟩ | ⟨hscan, hmark⟩ := exec_decChar_scanForward hs hhere
    · obtain rfl := next_unique hu hexec
      rw [hscan]
      refine decRuns_cons hexec (ih rfl (fun h => ?_) hrest)
      simpa [List.getLast_cons h] using hlast (by simp)
    · rw [hscan]
      obtain hexec | ⟨hstrip, hexec⟩ := hmark
      · exact decRuns_cons hexec (decRuns_err (.inl rfl))
      · have hne : t ≠ [] := by
          rintro rfl
          exact hlast (by simp) hstrip
        have hsymbol : isStrip (t.getLast hne) = false := by
          simpa [List.getLast_cons hne] using hlast (by simp)
        exact decRuns_cons hexec (decRuns_err (.inr ⟨rfl, _, t.getLast_mem hne, hsymbol⟩))

-- ---------------------------------------------------------------- the stripped tail

/-- Trailing `=` and whitespace change nothing of a message's result (R102, R114). -/
theorem decRuns_strip {t : List CharCode} (ht : ∀ c ∈ t, isStrip c = true) (s : State) :
    DecRuns (t.map .decChar) s (fun d => messageResult d = messageResult s.dec) := by
  induction t generalizing s with
  | nil => exact decRuns_nil rfl
  | cons c t ih =>
    obtain ⟨hstrip, hrest⟩ := List.forall_mem_cons.mp ht
    obtain ⟨hexec, -⟩ | ⟨hexec, -⟩ | ⟨-, -, hc⟩ | ⟨v, -, -, -, hc⟩ := execDecChar_cases c s
    · exact decRuns_cons hexec (ih hrest s)
    · exact decRuns_cons hexec (ih hrest (markPad s))
    · obtain hc | ⟨-, v, hc⟩ := hc <;> simp [isStrip, hc] at hstrip
    · simp [isStrip, hc] at hstrip

/-- The reference's effective text is the text without its trailing `=` and whitespace (R102). -/
theorem take_effectiveLength (t : List CharCode) : t.take (effectiveLength t) = t.rdropWhile isStrip := by
  have hlen : effectiveLength t = (t.rdropWhile isStrip).length := by
    simp [effectiveLength, List.rdropWhile]
  rw [hlen]
  exact (List.prefix_iff_eq_take.mp (t.rdropWhile_prefix isStrip)).symm

-- ---------------------------------------------------------------- DEC_STR

/-- The forward scan's first values (R107). -/
abbrev Scan.start : Scan := { out := [], inCount := 0, w := 0 }

/-- A unit that holds the scan of the effective text has the reference's result (R107). -/
theorem messageResult_of_holdsScan {t : List CharCode} {d : Dec}
    (h : HoldsScan (scanForward (t.rdropWhile isStrip) Scan.start) d) : messageResult d = refDecode t := by
  rw [refDecode, take_effectiveLength]
  split
  · next hscan =>
    rw [hscan] at h
    exact if_pos h
  · next a hscan =>
    rw [hscan] at h
    exact h ▸ messageResult_scanDec a

/-- The characters of a message leave the unit with the reference's result, where no command overflows:
its effective text as the forward scan says, and its stripped tail without a change (R114, R119). -/
theorem decRuns_text {t : List CharCode} {s : State} (hs : s.dec = Dec.start)
    (hover : runOverflows (t.map .decChar) s = false) :
    DecRuns (t.map .decChar) s (fun d => messageResult d = refDecode t) := by
  have hparts : t.map Instr.decChar =
      (t.rdropWhile isStrip).map .decChar ++ (t.rtakeWhile isStrip).map .decChar := by
    rw [← List.map_append, List.rdropWhile_append_rtakeWhile]
  rw [hparts] at hover ⊢
  have hstart : s.dec = Scan.start.dec := hs
  obtain ⟨d, hbody, hscan⟩ := decRuns_scanForward hstart (List.rdropWhile_last_not isStrip t)
    (runOverflows_left hover)
  obtain ⟨d', htail, hresult⟩ := decRuns_strip (t := t.rtakeWhile isStrip)
    (fun _ => List.mem_rtakeWhile_imp) { s with dec := d }
  exact ⟨d', (runCommands_append hbody _).trans htail, hresult.trans (messageResult_of_holdsScan hscan)⟩

/-- DEC_STR from the start of a message appends the result of `Decode(t)`, where no command
overflows (R119). -/
theorem runCommands_decStr {t : List CharCode} {s : State} (hs : s.dec = Dec.start)
    (hover : runOverflows (decStr t) s = false) :
    runCommands (decStr t) s = .next { s with decOut := s.decOut ++ resultItems (refDecode t) } := by
  obtain ⟨d, hrun, hresult⟩ := decRuns_text hs (runOverflows_left hover)
  rw [decStr, runCommands_append hrun, runCommands_singleton, ← hresult, hs]
  rfl

end Sys2Proof.Machine
end

section
/-!
Closed lists of commands. The commands of one unit in a closed list are the whole messages of that
unit, one after the other; the two units' commands may be run apart; and the items of whole messages
split again into the messages.
-/

namespace Sys2Proof.Machine

open Sys2Proof.Safety

/-- The commands of one unit in a list, in order. -/
def unitCommands (u : CodecUnit) (p : List Instr) : List Instr := p.filter (fun i => decide (i.unit = u))

@[simp] theorem unitCommands_nil (u : CodecUnit) : unitCommands u [] = [] := rfl

@[simp] theorem unitCommands_cons (u : CodecUnit) (i : Instr) (p : List Instr) :
    unitCommands u (i :: p) = if i.unit = u then i :: unitCommands u p else unitCommands u p := by
  simp [unitCommands, List.filter_cons]

@[simp] theorem encByte_unit (d : Byte) : (Instr.encByte d).unit = .enc := rfl
@[simp] theorem encEnd_unit : Instr.encEnd.unit = .enc := rfl
@[simp] theorem decChar_unit (c : CharCode) : (Instr.decChar c).unit = .dec := rfl
@[simp] theorem decEnd_unit : Instr.decEnd.unit = .dec := rfl

-- ---------------------------------------------------------------- a unit's commands as messages

@[simp] theorem encOpen_concat_encByte (p : List Instr) (d : Byte) : encOpen (p ++ [.encByte d]) = true := by
  simp [encOpen]

@[simp] theorem encOpen_concat_encEnd (p : List Instr) : encOpen (p ++ [.encEnd]) = false := by
  simp [encOpen]

@[simp] theorem encOpen_concat_decChar (p : List Instr) (c : CharCode) :
    encOpen (p ++ [.decChar c]) = encOpen p := by
  simp [encOpen]

@[simp] theorem encOpen_concat_decEnd (p : List Instr) : encOpen (p ++ [.decEnd]) = encOpen p := by
  simp [encOpen]

@[simp] theorem decOpen_concat_decChar (p : List Instr) (c : CharCode) :
    decOpen (p ++ [.decChar c]) = true := by
  simp [decOpen]

@[simp] theorem decOpen_concat_decEnd (p : List Instr) : decOpen (p ++ [.decEnd]) = false := by
  simp [decOpen]

@[simp] theorem decOpen_concat_encByte (p : List Instr) (d : Byte) :
    decOpen (p ++ [.encByte d]) = decOpen p := by
  simp [decOpen]

@[simp] theorem decOpen_concat_encEnd (p : List Instr) : decOpen (p ++ [.encEnd]) = decOpen p := by
  simp [decOpen]

/-- The encoder's commands in the rest `p` of a closed list, after the bytes `acc` of the message that
the commands `q` before it leave open, are whole messages (R66). -/
theorem unitCommands_enc_eq {q p : List Instr} {acc : List Byte} (hclosed : encOpen (q ++ p) = false)
    (hacc : encOpen q = false → acc = []) :
    acc.map .encByte ++ unitCommands .enc p = (encInputs acc p).flatMap encMsg := by
  induction p generalizing q acc with
  | nil => simp [hacc (by simpa using hclosed), encInputs]
  | cons i p ih =>
    have hnext : encOpen ((q ++ [i]) ++ p) = false := by simpa using hclosed
    cases i with
    | encByte d => simpa [encInputs] using ih (acc := acc ++ [d]) hnext (by simp)
    | encEnd => simpa [encInputs, encMsg] using ih (acc := []) hnext (by simp)
    | decChar c => simpa [encInputs] using ih hnext (by simpa using hacc)
    | decEnd => simpa [encInputs] using ih hnext (by simpa using hacc)

/-- The decoder's commands in the rest of a closed list, as for the encoder (R66). -/
theorem unitCommands_dec_eq {q p : List Instr} {acc : List CharCode} (hclosed : decOpen (q ++ p) = false)
    (hacc : decOpen q = false → acc = []) :
    acc.map .decChar ++ unitCommands .dec p = (decInputs acc p).flatMap decStr := by
  induction p generalizing q acc with
  | nil => simp [hacc (by simpa using hclosed), decInputs]
  | cons i p ih =>
    have hnext : decOpen ((q ++ [i]) ++ p) = false := by simpa using hclosed
    cases i with
    | encByte d => simpa [decInputs] using ih hnext (by simpa using hacc)
    | encEnd => simpa [decInputs] using ih hnext (by simpa using hacc)
    | decChar c => simpa [decInputs] using ih (acc := acc ++ [c]) hnext (by simp)
    | decEnd => simpa [decInputs, decStr] using ih (acc := []) hnext (by simp)

/-- Each unit's commands in a closed list are that unit's messages (R66, R157). -/
theorem unitCommands_of_closed {p : List Instr} (h : closedProgram p = true) :
    unitCommands .enc p = (encInputs [] p).flatMap encMsg ∧
    unitCommands .dec p = (decInputs [] p).flatMap decStr := by
  simp only [closedProgram, Bool.and_eq_true, Bool.not_eq_true'] at h
  obtain ⟨henc, hdec⟩ := h
  exact ⟨unitCommands_enc_eq (q := []) henc fun _ => rfl, unitCommands_dec_eq (q := []) hdec fun _ => rfl⟩

-- ---------------------------------------------------------------- overflow of the decoder's commands

theorem overflowsAt_congr (i : Instr) {s s' : State} (hdec : s.dec = s'.dec) (hcap : s.decCap = s'.decCap) :
    overflowsAt i s = overflowsAt i s' := by
  simp only [overflowsAt, hdec, hcap]

theorem overflowsAt_enc {i : Instr} (hi : i.unit = .enc) (s : State) : overflowsAt i s = false := by
  cases i with
  | encByte d => rfl
  | encEnd => rfl
  | decChar c => cases hi
  | decEnd => cases hi

/-- Whether a list overflows is told by its decoder commands alone, from any state with the same
decoder unit and capacity (R14, R135). -/
theorem runOverflows_unitCommands {p : List Instr} {s s' : State} (hdec : s.dec = s'.dec)
    (hcap : s.decCap = s'.decCap) : runOverflows (unitCommands .dec p) s' = runOverflows p s := by
  induction p generalizing s s' with
  | nil => rfl
  | cons i p ih =>
    obtain ⟨t, ht⟩ := exec_answers i s
    rw [runOverflows_cons ht]
    cases hi : i.unit with
    | enc =>
      obtain ⟨hdec', -, -, hcap', -⟩ := exec_enc_frame hi ht
      rw [unitCommands_cons, hi, if_neg (by decide), overflowsAt_enc hi, Bool.false_or]
      exact ih (hdec'.trans hdec) (hcap'.trans hcap)
    | dec =>
      obtain ⟨d', bits, items, -, -, -, hexec⟩ := exec_dec_update hi s.dec s.decCap
      obtain rfl := next_unique ht (hexec s rfl rfl)
      rw [unitCommands_cons, if_pos hi, runOverflows_cons (hexec s' hdec.symm hcap.symm),
        overflowsAt_congr i hdec hcap]
      congr 1
      exact ih rfl hcap

-- ---------------------------------------------------------------- running whole messages

theorem runCommands_encMsgs (ms : List (List Byte)) {s : State} (hs : s.enc = Enc.start) :
    runCommands (ms.flatMap encMsg) s =
      .next { s with encOut := s.encOut ++ ms.flatMap (fun b => messageItems (refEncode b)) } := by
  induction ms generalizing s with
  | nil => simp [runCommands]
  | cons b ms ih =>
    rw [List.flatMap_cons, runCommands_append (runCommands_encMsg b hs)]
    refine (ih ?_).trans ?_
    · exact hs
    · simp

theorem runCommands_decStrs {ts : List (List CharCode)} {s : State} (hs : s.dec = Dec.start)
    (hover : runOverflows (ts.flatMap decStr) s = false) :
    runCommands (ts.flatMap decStr) s =
      .next { s with decOut := s.decOut ++ ts.flatMap (fun t => resultItems (refDecode t)) } := by
  induction ts generalizing s with
  | nil => simp [runCommands]
  | cons t ts ih =>
    rw [List.flatMap_cons] at hover ⊢
    have hrun := runCommands_decStr hs (runOverflows_left hover)
    rw [runOverflows_append hrun, Bool.or_eq_false_iff] at hover
    obtain ⟨-, hrest⟩ := hover
    rw [runCommands_append hrun]
    refine (ih ?_ hrest).trans ?_
    · exact hs
    · simp

/-- A closed list in which nothing overflows delivers every message's result: the encoder's messages
may be run first, then the decoder's (R50, R66, R91, R119). -/
theorem runCommands_of_closed {p : List Instr} (hclosed : closedProgram p = true) {s : State}
    (henc : s.enc = Enc.start) (hdec : s.dec = Dec.start) (hover : runOverflows p s = false) :
    runCommands p s = .next { s with
      encOut := s.encOut ++ (encInputs [] p).flatMap (fun b => messageItems (refEncode b)),
      decOut := s.decOut ++ (decInputs [] p).flatMap (fun t => resultItems (refDecode t)) } := by
  obtain ⟨hencs, hdecs⟩ := unitCommands_of_closed hclosed
  have hunits : runCommands p s = runCommands (unitCommands .enc p ++ unitCommands .dec p) s :=
    interleavingChangesNothing p s
  rw [hunits, hencs, hdecs, runCommands_append (runCommands_encMsgs _ henc)]
  refine runCommands_decStrs ?_ ?_
  · exact hdec
  · rw [← hdecs]
    refine (runOverflows_unitCommands ?_ ?_).trans hover
    · rfl
    · rfl

-- ---------------------------------------------------------------- the items split into messages

/-- The items of one encoded message, read after the characters `acc`, close one message (R156). -/
theorem encMessages_messageItems (acc chars : List Byte) (rest : List EncItem) :
    encMessages acc (messageItems chars ++ rest) = (acc ++ chars) :: encMessages [] rest := by
  induction chars generalizing acc with
  | nil => simp [messageItems, encMessages]
  | cons c chars ih => simpa [messageItems, encMessages] using ih (acc ++ [c])

theorem decResults_bytes (acc bytes : List Byte) (rest : List DecItem) :
    decResults acc (bytes.map .byte ++ rest) = decResults (acc ++ bytes) rest := by
  induction bytes generalizing acc with
  | nil => simp
  | cons b bytes ih => simpa [decResults] using ih (acc ++ [b])

/-- The items of one result close one result (R156). -/
theorem decResults_resultItems (r : DecodeResult) (rest : List DecItem) :
    decResults [] (resultItems r ++ rest) = r :: decResults [] rest := by
  cases r with
  | valid bytes => simp [resultItems, decResults_bytes, decResults]
  | invalid => simp [resultItems, decResults]

theorem encMessages_flatMap (ms : List (List Byte)) :
    encMessages [] (ms.flatMap (fun b => messageItems (refEncode b))) = ms.map refEncode := by
  induction ms with
  | nil => rfl
  | cons b ms ih => simp [encMessages_messageItems, ih]

theorem decResults_flatMap (ts : List (List CharCode)) :
    decResults [] (ts.flatMap (fun t => resultItems (refDecode t))) = ts.map refDecode := by
  induction ts with
  | nil => rfl
  | cons t ts ih => simp [decResults_resultItems, ih]

/-- Settles O53: the end state by the messages of each unit, and its observation by splitting their
items again. -/
theorem closedCommandListsDeliverEveryMessage : Obligations.ClosedCommandListsDeliverEveryMessage := by
  intro p hclosed
  refine ⟨fun s henc hdec hover => runCommands_of_closed hclosed henc hdec hover, fun cap hover => ?_⟩
  refine ⟨_, runCommands_of_closed hclosed rfl rfl hover, ?_⟩
  simp [observe, encMessages_flatMap, decResults_flatMap]

end Sys2Proof.Machine
end

section
/-!
What the encoder's commands put in `enc_out`. ENC_BYTE and ENC_END are computed by the rules' own
arithmetic on natural numbers; every command emits ROM entries, ENC_END with padding and `EndMsg`
after them, and with that each action of the host keeps the shape of the queue's messages.
-/

namespace Sys2Proof.Machine

open Sys2Proof.Safety

-- ---------------------------------------------------------------- buffers as natural numbers

/-- A byte shifted in, by the rule's arithmetic (R84). -/
theorem pushByte_eq_ofNat (buf : Buf) (d : Byte) :
    pushByte buf d = BitVec.ofNat 40 (buf.toNat * 2 ^ 8 ||| d.toNat) := by
  apply BitVec.eq_of_toNat_eq
  simp [pushByte, Nat.shiftLeft_eq]

/-- The symbols of a buffer from the most significant down, each by its place (R43). -/
theorem symbolsOf_eq_map_range (n : Nat) (v : Buf) :
    symbolsOf n v = (List.range n).map (fun j => v.extractLsb' (5 * (n - 1 - j)) 5) := by
  induction n with
  | zero => rfl
  | succ n ih =>
    rw [List.range_succ_eq_map, symbolsOf, ih]
    simp [Nat.sub_add_eq, Nat.sub_right_comm]

/-- A symbol of the shifted buffer, by the rule's arithmetic (R82). -/
theorem extractLsb'_shiftLeft_eq_ofNat (buf : Buf) (sh : Nat) {start : Nat} (h : start + 5 ≤ 40) :
    (buf <<< sh).extractLsb' start 5 = BitVec.ofNat 5 (buf.toNat * 2 ^ sh / 2 ^ start) := by
  ext i hi
  have hroom : start + i < 40 := by omega
  rw [BitVec.getElem_extractLsb', BitVec.getLsbD, BitVec.getElem_eq_testBit_toNat, BitVec.toNat_shiftLeft,
    Nat.shiftLeft_eq, BitVec.toNat_ofNat]
  simp only [Nat.testBit_mod_two_pow, Nat.testBit_div_two_pow, hi, hroom, Nat.add_comm]

/-- The symbols of the shifted buffer, by the rule's arithmetic (R82). -/
theorem symbolsOf_shiftLeft (buf : Buf) (sh : Nat) {n : Nat} (hn : n ≤ 8) :
    symbolsOf n (buf <<< sh) =
      (List.range n).map (fun j => BitVec.ofNat 5 (buf.toNat * 2 ^ sh / 2 ^ (5 * (n - 1 - j)))) := by
  rw [symbolsOf_eq_map_range]
  refine List.map_congr_left fun j hj => ?_
  have hj := List.mem_range.mp hj
  exact extractLsb'_shiftLeft_eq_ofNat buf sh (by omega)

/-- Settles O14: the two cases of ENC_BYTE, with the buffer by the rule's arithmetic. -/
theorem encByteResult : Obligations.EncByteResult := by
  intro d s
  dsimp only
  rw [← pushByte_eq_ofNat]
  obtain ⟨hfour, hexec⟩ | ⟨k, hk, hexec⟩ := execEncByte_cases d s
  · exact ⟨fun _ => hexec, fun h => absurd (by omega) h⟩
  · have hroom := k.isLt
    exact ⟨fun h => by omega, fun _ => ⟨k, hk, hexec⟩⟩

/-- The table T of R82, as its rows are written in the statement on ENC_END. -/
theorem encTail_of_row {r : Fin 5} {row : Nat × Nat × Nat × Nat}
    (hrow : row ∈ [(0, 0, 0, 0), (1, 2, 2, 6), (2, 4, 4, 4), (3, 5, 1, 3), (4, 7, 3, 1)])
    (hr : r.val = row.1) : encTail r = { ns := row.2.1, sh := row.2.2.1, np := row.2.2.2 } := by
  revert r row; decide

/-- A tail's symbols lie within the buffer (R82). -/
theorem encTail_ns_le (r : Fin 5) : (encTail r).ns ≤ 8 := by revert r; decide

/-- Settles O15: the row of the table says how many symbols of the shifted buffer and how much padding
stand before `EndMsg`. -/
theorem encEndResult : Obligations.EncEndResult := by
  intro s row hrow hr
  have htail := encTail_of_row hrow hr
  have hns : row.2.1 ≤ 8 := by simpa [htail] using encTail_ns_le s.enc.cnt
  have hchars : tailChars s.enc.cnt s.enc.buf =
      (symbolsOf row.2.1 (s.enc.buf <<< row.2.2.1)).map rom ++ List.replicate row.2.2.2 padChar := by
    rw [tailChars, htail]
  simp [exec, execEncEnd, hchars, symbolsOf_shiftLeft _ _ hns, startEnc, emitEnc, Enc.start,
    Function.comp_def]

-- ---------------------------------------------------------------- what each command emits

/-- What a command appends to `enc_out`: ENC_END a message's last symbols, its padding and `EndMsg`,
any other command symbols alone (R84 to R87). -/
theorem exec_encOut_cases {i : Instr} {s t : State} (ht : exec i s = .next t) :
    (i ≠ .encEnd ∧ ∃ vs : List Sym, t.encOut = s.encOut ++ (vs.map rom).map .chr) ∨
    (i = .encEnd ∧ ∃ (vs : List Sym) (np : Nat),
      t.encOut = s.encOut ++ messageItems (vs.map rom ++ List.replicate np padChar)) := by
  cases i with
  | encByte d =>
    refine .inl ⟨nofun, ?_⟩
    obtain ⟨-, hexec⟩ | ⟨k, -, hexec⟩ := execEncByte_cases d s
    · obtain rfl := next_unique ht hexec
      exact ⟨_, rfl⟩
    · obtain rfl := next_unique ht hexec
      exact ⟨[], by simp⟩
  | encEnd =>
    obtain rfl := next_unique ht rfl
    exact .inr ⟨rfl, _, _, rfl⟩
  | decChar c =>
    obtain ⟨-, hencOut, -⟩ := decoderCommandsFrame _ s t (.inl ⟨c, rfl⟩) ht
    exact .inl ⟨nofun, [], by simp [hencOut]⟩
  | decEnd =>
    obtain ⟨-, hencOut, -⟩ := decoderCommandsFrame _ s t (.inr rfl) ht
    exact .inl ⟨nofun, [], by simp [hencOut]⟩

/-- Every ROM entry is in `A-Z2-7` (R86). -/
theorem alphabetCode_rom : ∀ v : Sym, alphabetCode (rom v) := by decide

theorem not_alphabetCode_padChar : ¬ alphabetCode padChar := by decide

/-- No ROM entry is `=` (R87). -/
theorem rom_ne_padChar (v : Sym) : rom v ≠ padChar := fun h =>
  not_alphabetCode_padChar (h ▸ alphabetCode_rom v)

/-- A character that a command emits is a ROM entry or `=` (R86). -/
theorem eq_rom_of_emitted {i : Instr} {s t : State} {items : List EncItem} {c : Byte}
    (ht : exec i s = .next t) (hitems : t.encOut = s.encOut ++ items) (hc : .chr c ∈ items)
    (hpad : c ≠ padChar) : ∃ v, c = rom v := by
  obtain ⟨-, vs, hout⟩ | ⟨-, vs, np, hout⟩ := exec_encOut_cases ht
  · obtain rfl := List.append_cancel_left (hitems.symm.trans hout)
    obtain ⟨v, -, rfl⟩ : ∃ v ∈ vs, rom v = c := by simpa using hc
    exact ⟨v, rfl⟩
  · obtain rfl := List.append_cancel_left (hitems.symm.trans hout)
    obtain ⟨v, -, rfl⟩ : ∃ v ∈ vs, rom v = c := by simpa [messageItems, hpad] using hc
    exact ⟨v, rfl⟩

/-- Settles O17: an emitted character is a ROM entry or `=`. -/
theorem emittedSymbolsAreRomEntries : Obligations.EmittedSymbolsAreRomEntries := by
  intro i s t items c ht hitems hc hpad
  obtain ⟨v, rfl⟩ := eq_rom_of_emitted ht hitems hc hpad
  exact ⟨⟨v, rfl⟩, alphabetCode_rom v⟩

theorem padChar_notMem_map_rom (vs : List Sym) : padChar ∉ vs.map rom := by
  simpa using fun v _ => rom_ne_padChar v

theorem alphabetCode_of_mem_map_rom {vs : List Sym} : ∀ c ∈ vs.map rom, alphabetCode c := by
  simpa using fun v _ => alphabetCode_rom v

/-- Settles O18: only ENC_END emits padding, and no symbol is `=`. -/
theorem paddingOnlyEndsAMessage : Obligations.PaddingOnlyEndsAMessage := by
  refine ⟨fun d s t items ht hitems => ?_, fun s => ?_⟩
  · obtain ⟨-, vs, hout⟩ | ⟨hend, -⟩ := exec_encOut_cases ht
    · obtain rfl := List.append_cancel_left (hitems.symm.trans hout)
      rw [List.mem_map_of_injective fun _ _ => EncItem.chr.inj]
      exact padChar_notMem_map_rom vs
    · cases hend
  · obtain ⟨t, ht⟩ := exec_answers .encEnd s
    obtain ⟨hne, -⟩ | ⟨-, vs, np, hout⟩ := exec_encOut_cases ht
    · exact absurd rfl hne
    · refine ⟨t, vs.map rom, np, ht, ?_, padChar_notMem_map_rom vs⟩
      rw [hout, messageItems, List.map_append, List.map_replicate]
      rfl

-- ---------------------------------------------------------------- the shape of the queue

theorem encMessages_append (acc : List Byte) (q r : List EncItem) :
    encMessages acc (q ++ r) = encMessages acc q ++ encMessages (openChars acc q) r := by
  induction q generalizing acc with
  | nil => rfl
  | cons x q ih => cases x <;> simp [encMessages, openChars, ih]

theorem openChars_append (acc : List Byte) (q r : List EncItem) :
    openChars acc (q ++ r) = openChars (openChars acc q) r := by
  induction q generalizing acc with
  | nil => rfl
  | cons x q ih => cases x <;> simp [openChars, ih]

theorem encMessages_chars (acc chars : List Byte) : encMessages acc (chars.map .chr) = [] := by
  induction chars generalizing acc with
  | nil => rfl
  | cons c chars ih => exact ih (acc ++ [c])

theorem openChars_chars (acc chars : List Byte) : openChars acc (chars.map .chr) = acc ++ chars := by
  induction chars generalizing acc with
  | nil => simp [openChars]
  | cons c chars ih => simp [openChars, ih]

theorem encMessages_messageItems_only (acc chars : List Byte) :
    encMessages acc (messageItems chars) = [acc ++ chars] := by
  simpa [encMessages] using encMessages_messageItems acc chars []

theorem openChars_messageItems (acc chars : List Byte) : openChars acc (messageItems chars) = [] := by
  rw [messageItems, openChars_append]
  rfl

/-- The shape of the encoder's queue, said of its items (R86, R87). -/
def QueueShape (q : List EncItem) : Prop :=
  (∀ m ∈ encMessages [] q, wellPadded m) ∧ ∀ c ∈ openChars [] q, alphabetCode c

theorem encQueueOk_iff (s : State) : EncQueueOk s ↔ QueueShape s.encOut := Iff.rfl

/-- More symbols join the open message. -/
theorem QueueShape.append_symbols {q : List EncItem} {syms : List Byte} (h : QueueShape q)
    (hsyms : ∀ c ∈ syms, alphabetCode c) : QueueShape (q ++ syms.map .chr) := by
  obtain ⟨hdone, hopen⟩ := h
  rw [QueueShape, encMessages_append, encMessages_chars, List.append_nil, openChars_append, openChars_chars]
  exact ⟨hdone, List.forall_mem_append.mpr ⟨hopen, hsyms⟩⟩

/-- Symbols and padding close the open message, and the next one is empty. -/
theorem QueueShape.append_message {q : List EncItem} {syms : List Byte} (h : QueueShape q)
    (hsyms : ∀ c ∈ syms, alphabetCode c) (np : Nat) :
    QueueShape (q ++ messageItems (syms ++ List.replicate np padChar)) := by
  obtain ⟨hdone, hopen⟩ := h
  have hclosed : wellPadded (openChars [] q ++ (syms ++ List.replicate np padChar)) :=
    ⟨openChars [] q ++ syms, np, by simp, List.forall_mem_append.mpr ⟨hopen, hsyms⟩⟩
  rw [QueueShape, encMessages_append, encMessages_messageItems_only, openChars_append, openChars_messageItems]
  exact ⟨List.forall_mem_append.mpr ⟨hdone, by simpa using hclosed⟩, by simp⟩

/-- What is left of a message when the host has taken its first characters keeps the shape (R87). -/
theorem wellPadded_of_suffix {m chars : List Byte} (h : m <:+ chars) (hchars : wellPadded chars) :
    wellPadded m := by
  obtain ⟨syms, n, rfl, hsyms⟩ := hchars
  rw [List.suffix_iff_eq_drop] at h
  rw [h, List.drop_append, List.drop_replicate]
  exact ⟨_, _, rfl, fun c hc => hsyms c (List.mem_of_mem_drop hc)⟩

/-- Characters taken from the front of the first message shorten that message or the open one. -/
theorem messages_suffix {acc acc' : List Byte} (h : acc <:+ acc') (q : List EncItem) :
    (∀ m ∈ encMessages acc q, ∃ m' ∈ encMessages acc' q, m <:+ m') ∧
    openChars acc q <:+ openChars acc' q := by
  induction q generalizing acc acc' with
  | nil => exact ⟨by simp [encMessages], h⟩
  | cons x q ih =>
    cases x with
    | chr c => exact ih (List.suffix_append_self_iff.mpr h)
    | endMsg =>
      refine ⟨fun m hm => ?_, List.suffix_rfl⟩
      obtain rfl | hm := List.mem_cons.mp hm
      · exact ⟨acc', List.mem_cons_self, h⟩
      · exact ⟨m, List.mem_cons_of_mem _ hm, List.suffix_rfl⟩

/-- Taking the head of the queue shortens its first message, or ends it (R87, R154). -/
theorem QueueShape.tail {q : List EncItem} (h : QueueShape q) : QueueShape q.tail := by
  obtain ⟨hdone, hopen⟩ := h
  match q with
  | [] => exact ⟨hdone, hopen⟩
  | .endMsg :: q => exact ⟨fun m hm => hdone m (List.mem_cons_of_mem _ hm), hopen⟩
  | .chr c :: q =>
    obtain ⟨hmessages, hsuffix⟩ := messages_suffix (List.nil_suffix (l := [c])) q
    refine ⟨fun m hm => ?_, fun x hx => hopen x (hsuffix.subset hx)⟩
    obtain ⟨m', hm', hshort⟩ := hmessages m hm
    exact wellPadded_of_suffix hshort (hdone m' hm')

theorem exec_keeps_encQueueOk {i : Instr} {s t : State} (ht : exec i s = .next t) (hs : EncQueueOk s) :
    EncQueueOk t := by
  rw [encQueueOk_iff] at hs ⊢
  obtain ⟨-, vs, hout⟩ | ⟨-, vs, np, hout⟩ := exec_encOut_cases ht
  · exact hout ▸ hs.append_symbols alphabetCode_of_mem_map_rom
  · exact hout ▸ hs.append_message alphabetCode_of_mem_map_rom np

theorem applyEvent_keeps_encQueueOk {e : HostEvent} {s t : State} (ht : applyEvent e s = .next t)
    (hs : EncQueueOk s) : EncQueueOk t := by
  cases e with
  | cmd w =>
    obtain ⟨i, -, hw⟩ | ⟨_, -, hw⟩ := acceptWord_cases w s
    · exact exec_keeps_encQueueOk (hw.symm.trans ht) hs
    · obtain rfl := next_unique ht hw
      exact hs
  | takeEnc =>
    obtain rfl := next_unique ht rfl
    exact QueueShape.tail hs
  | takeDec =>
    obtain rfl := next_unique ht rfl
    exact hs
  | rst =>
    obtain rfl := next_unique ht rfl
    exact (invariantsHoldAtReset s.decCap).2

/-- Settles O23: the idle step changes nothing, and every action of the host keeps the shape. -/
theorem stepKeepsTheEncoderQueueShape : Obligations.StepKeepsTheEncoderQueueShape := by
  intro s t hs ht
  obtain ⟨-, hidle⟩ | ⟨e, rest, -, hstep⟩ := step_cases s
  · exact next_unique ht hidle ▸ hs
  · exact applyEvent_keeps_encQueueOk (s := { s with input := rest }) (hstep.symm.trans ht) hs

end Sys2Proof.Machine
end

section
/-!
The reference's Encode as symbols and padding. An encoded message is the ROM entries of its symbol
values and then `=`; its laws are counts of the two. `Decode` strips the padding, reads the same
symbol values back, and cuts their bits into the message's bytes again: the round trip.
-/

namespace Sys2Proof.Machine

-- ---------------------------------------------------------------- a message as symbols and padding

/-- A message group by group: a partial group of up to four bytes, and one more full group (R80). -/
theorem byteGroups_induction {P : List Byte → Prop} (tail : ∀ ds, ds.length ≤ 4 → P ds)
    (group : ∀ d0 d1 d2 d3 d4 rest, P rest → P (d0 :: d1 :: d2 :: d3 :: d4 :: rest)) (b : List Byte) : P b := by
  match b with
  | [] | [_] | [_, _] | [_, _, _] | [_, _, _, _] => exact tail _ (by simp)
  | d0 :: d1 :: d2 :: d3 :: d4 :: rest => exact group _ _ _ _ _ _ (byteGroups_induction tail group rest)

/-- The row of the table T for a message of this length (R82). -/
def messageTail (b : List Byte) : EncTail := encTail (Fin.ofNat 5 b.length)

/-- The symbol values of an encoded message (R80 to R82). -/
def messageSyms : List Byte → List Sym
  | d0 :: d1 :: d2 :: d3 :: d4 :: rest => symbolsOf 8 (packBytes [d0, d1, d2, d3, d4]) ++ messageSyms rest
  | ds => symbolsOf (messageTail ds).ns (packBytes ds <<< (messageTail ds).sh)

theorem messageSyms_tail {ds : List Byte} (h : ds.length ≤ 4) :
    messageSyms ds = symbolsOf (messageTail ds).ns (packBytes ds <<< (messageTail ds).sh) := by
  match ds, h with
  | [], _ | [_], _ | [_, _], _ | [_, _, _], _ | [_, _, _, _], _ => rfl

theorem refEncode_tail {ds : List Byte} (h : ds.length ≤ 4) : refEncode ds = refTail ds := by
  match ds, h with
  | [], _ | [_], _ | [_, _], _ | [_, _, _], _ | [_, _, _, _], _ => rfl

/-- A full group before the message does not change its tail. -/
theorem messageTail_group (d0 d1 d2 d3 d4 : Byte) (rest : List Byte) :
    messageTail (d0 :: d1 :: d2 :: d3 :: d4 :: rest) = messageTail rest := by
  have hmod : (rest.length + 5) % 5 = rest.length % 5 := Nat.add_mod_right _ _
  simp [messageTail, Fin.ofNat, hmod]

/-- `Encode(b)` is ROM entries and then padding (R80 to R83). -/
theorem refEncode_eq_syms_pad (b : List Byte) :
    refEncode b = (messageSyms b).map rom ++ List.replicate (messageTail b).np padChar := by
  induction b using byteGroups_induction with
  | tail ds hds => rw [refEncode_tail hds, messageSyms_tail hds, ← tailChars_packBytes hds]; rfl
  | group d0 d1 d2 d3 d4 rest ih =>
    rw [refEncode, messageSyms, messageTail_group, ih, ← groupChars_packBytes, groupChars, List.map_append,
      List.append_assoc]

/-- The symbols of a tail by its number of bytes, the padding up to a group of eight characters or to
none, and the zero bits up to whole symbols (R82). -/
theorem encTail_counts (r : Fin 5) :
    (encTail r).ns = (8 * r.val + 4) / 5 ∧ (encTail r).ns + (encTail r).np = (r.val + 4) / 5 * 8 ∧
    8 * r.val + (encTail r).sh = 5 * (encTail r).ns := by
  revert r; decide

/-- The number of a message's symbols: its bits in fives, rounded up. -/
theorem messageSyms_length (b : List Byte) : (messageSyms b).length = (8 * b.length + 4) / 5 := by
  induction b using byteGroups_induction with
  | tail ds hds =>
    obtain ⟨hns, -⟩ := encTail_counts (Fin.ofNat 5 ds.length)
    have hr : (Fin.ofNat 5 ds.length).val = ds.length := Nat.mod_eq_of_lt (by omega)
    rw [messageSyms_tail hds, symbolsOf_length, messageTail, hns, hr]
  | group d0 d1 d2 d3 d4 rest ih =>
    simp only [messageSyms, List.length_append, symbolsOf_length, ih, List.length_cons]
    omega

/-- The padding fills a message's last group of eight characters. -/
theorem messageSyms_length_add_np (b : List Byte) :
    (messageSyms b).length + (messageTail b).np = (b.length + 4) / 5 * 8 := by
  obtain ⟨hns, hgroup, -⟩ := encTail_counts (Fin.ofNat 5 b.length)
  have hr : (Fin.ofNat 5 b.length).val = b.length % 5 := rfl
  have hsyms : (8 * b.length + 4) / 5 = 8 * (b.length / 5) + (8 * (b.length % 5) + 4) / 5 := by omega
  rw [messageSyms_length, messageTail, hsyms, ← hr, ← hns, Nat.add_assoc, hgroup, hr]
  omega

-- ---------------------------------------------------------------- the laws of Encode

/-- Settles O21: the symbols and the padding counted. -/
theorem encodeLengthLaw : Obligations.EncodeLengthLaw := by
  intro b
  have hlen : (refEncode b).length = (b.length + 4) / 5 * 8 := by
    rw [refEncode_eq_syms_pad, List.length_append, List.length_map, List.length_replicate,
      messageSyms_length_add_np]
  exact ⟨hlen, hlen ▸ Nat.mul_mod_left _ 8⟩

/-- The characters at the end of `Encode(b)` that are `=` are exactly its padding (R87, R90). -/
theorem takeWhile_reverse_refEncode (b : List Byte) :
    (refEncode b).reverse.takeWhile (fun c => c == padChar) = List.replicate (messageTail b).np padChar := by
  have hsyms : ((messageSyms b).map rom).reverse.takeWhile (fun c => c == padChar) = [] :=
    List.takeWhile_eq_nil_iff.mpr fun _ => by simp [rom_ne_padChar]
  rw [refEncode_eq_syms_pad, List.reverse_append, List.reverse_replicate, List.takeWhile_append_of_pos (by simp),
    hsyms, List.append_nil]

/-- The padding column of the table T, as its rows are written in the padding law (R82, R90). -/
theorem encTail_np_of_row {r : Fin 5} {row : Nat × Nat}
    (hrow : row ∈ [(0, 0), (1, 6), (2, 4), (3, 3), (4, 1)]) (hr : r.val = row.1) : (encTail r).np = row.2 := by
  revert r row; decide

/-- Settles O22: the trailing `=` are the padding that the table T gives for the length. -/
theorem encodePaddingLaw : Obligations.EncodePaddingLaw := by
  intro b row hrow hr
  rw [takeWhile_reverse_refEncode, List.length_replicate]
  exact encTail_np_of_row hrow hr

-- ---------------------------------------------------------------- the encoder's whole message

/-- Settles O20: the encoder's state is that of the start of a message. -/
theorem streamingEncodeIsTheReference : Obligations.StreamingEncodeIsTheReference := by
  intro b s hcnt hbuf
  have hstart : s.enc = Enc.start := by rw [Enc.start, ← hcnt, ← hbuf]
  exact runCommands_encMsg b hstart

-- ---------------------------------------------------------------- an encoded message's codes read back

/-- The code the decoder is given for a symbol value (R92). -/
def symCode (v : Sym) : CharCode := (rom v).setWidth 16

/-- The decoder reads a ROM entry as its value (R101). -/
@[simp] theorem classify_symCode : ∀ v : Sym, classify (symCode v) = .alpha v := by decide

@[simp] theorem isStrip_symCode (v : Sym) : isStrip (symCode v) = false := by simp [isStrip]

theorem map_setWidth_refEncode (b : List Byte) :
    (refEncode b).map (BitVec.setWidth 16) =
      (messageSyms b).map symCode ++ List.replicate (messageTail b).np 0x3D#16 := by
  rw [refEncode_eq_syms_pad, List.map_append, List.map_map, List.map_replicate]
  rfl

/-- The scan reads symbol values in order. -/
theorem scanForward_symCodes (vs : List Sym) (a : Scan) :
    scanForward (vs.map symCode) a = some (vs.foldl scanSymbol a) := by
  induction vs generalizing a with
  | nil => rfl
  | cons v vs ih => simp [scanForward, ih]

/-- Stripping the end of a list takes all of a last part of stripped items. -/
theorem rdropWhile_append_of_pos {α : Type} {p : α → Bool} {l r : List α} (h : ∀ x ∈ r, p x = true) :
    (l ++ r).rdropWhile p = l.rdropWhile p := by
  rw [List.rdropWhile, List.reverse_append, List.dropWhile_append_of_pos (by simpa using h), List.rdropWhile]

/-- `Decode` of an encoded message strips its padding and scans its symbol values (R102, R107). -/
theorem refDecode_map_refEncode (b : List Byte) :
    refDecode ((refEncode b).map (BitVec.setWidth 16)) =
      tailPolicy ((messageSyms b).foldl scanSymbol Scan.start) := by
  have hpad : ∀ c ∈ List.replicate (messageTail b).np 0x3D#16, isStrip c = true := fun c hc =>
    List.eq_of_mem_replicate hc ▸ by decide
  have hsyms : ((messageSyms b).map symCode).rdropWhile isStrip = (messageSyms b).map symCode :=
    List.rdropWhile_eq_self_iff.mpr fun _ => by simp
  rw [refDecode, take_effectiveLength, map_setWidth_refEncode, rdropWhile_append_of_pos hpad, hsyms,
    scanForward_symCodes]

-- ---------------------------------------------------------------- bits cut into symbols and bytes

/-- Fewer than a group of symbol values stay in the scan's buffer, in order (R105). -/
theorem foldl_scanSymbol_short {vs : List Sym} {a : Scan} (h : a.inCount % 8 + vs.length < 8) :
    vs.foldl scanSymbol a =
      { out := a.out, inCount := a.inCount + vs.length, w := vs.foldl pushSym a.w } := by
  induction vs generalizing a with
  | nil => rfl
  | cons v vs ih =>
    rw [List.length_cons] at h
    have hmod : ¬ (a.inCount + 1) % 8 = 0 := by omega
    have hsym : scanSymbol a v = { out := a.out, inCount := a.inCount + 1, w := pushSym a.w v } := if_neg hmod
    rw [List.foldl_cons, hsym, ih (show (a.inCount + 1) % 8 + vs.length < 8 by omega)]
    simp [Nat.add_assoc, Nat.add_comm 1]

/-- Eight symbol values from a group's start give their five bytes (R105). -/
theorem foldl_scanSymbol_group {vs : List Sym} {a : Scan} (ha : a.inCount % 8 = 0) (h : vs.length = 8) :
    vs.foldl scanSymbol a =
      { out := a.out ++ bytesOf 5 (vs.foldl pushSym a.w), inCount := a.inCount + 8, w := 0 } := by
  obtain rfl | ⟨init, v, rfl⟩ := List.eq_nil_or_concat' vs
  · cases h
  · have hinit : init.length = 7 := by simpa using h
    have hmod : (a.inCount + 7 + 1) % 8 = 0 := by omega
    rw [List.foldl_append, List.foldl_append, foldl_scanSymbol_short (vs := init) (by omega), hinit]
    exact if_pos hmod

/-- The symbols of a buffer's low bits put those bits back (R43, R110). -/
theorem foldl_pushSym_symbolsOf (n : Nat) (v acc : Buf) :
    ((symbolsOf n v).foldl pushSym acc).toNat = (acc.toNat * 2 ^ (5 * n) + v.toNat % 2 ^ (5 * n)) % 2 ^ 40 := by
  induction n generalizing acc with
  | zero => simp [symbolsOf, Nat.mod_one, Nat.mod_eq_of_lt acc.isLt]
  | succ n ih =>
    have hlow : v.toNat % 2 ^ (5 * (n + 1)) =
        v.toNat % 2 ^ (5 * n) + 2 ^ (5 * n) * (v.toNat / 2 ^ (5 * n) % 2 ^ 5) := by
      rw [Nat.mul_succ, Nat.pow_add, Nat.mod_mul]
    rw [symbolsOf, List.foldl_cons, ih, pushSym_toNat, BitVec.extractLsb'_toNat, Nat.shiftRight_eq_div_pow, hlow,
      Nat.add_mod, Nat.mod_mul_mod, ← Nat.add_mod]
    congr 1
    ring

/-- A buffer of `n` symbols is its symbols packed again (R43). -/
theorem packSyms_symbolsOf {n : Nat} {v : Buf} (h : v.toNat < 2 ^ (5 * n)) : packSyms (symbolsOf n v) = v := by
  apply BitVec.eq_of_toNat_eq
  rw [packSyms, foldl_pushSym_symbolsOf, Nat.mod_eq_of_lt h]
  simp [Nat.mod_eq_of_lt v.isLt]

/-- The bytes of a group packed and cut again (R45). -/
theorem bytesOf_packBytes {ds : List Byte} (h : ds.length ≤ 5) : bytesOf ds.length (packBytes ds) = ds := by
  match ds, h with
  | [], _ => rfl
  | [_], _ | [_, _], _ | [_, _, _], _ | [_, _, _, _], _ | [_, _, _, _, _], _ =>
    simp [packBytes_cons, pushByte_setWidth, bytesOf, BitVec.extractLsb'_setWidth_of_le, extractLsb'_append]

/-- Packed bytes hold nothing above them (R37). -/
theorem packBytes_toNat_lt (ds : List Byte) : (packBytes ds).toNat < 2 ^ (8 * ds.length) := by
  induction ds using List.reverseRecOn with
  | nil => decide
  | append_singleton ds d ih =>
    rw [packBytes_concat, List.length_append]
    exact pushByte_toNat_lt ih d

/-- Zero bits appended within the buffer lose nothing (R82). -/
theorem toNat_shiftLeft_of_lt {x : Buf} {m sh : Nat} (hx : x.toNat < 2 ^ m) (h : m + sh ≤ 40) :
    (x <<< sh).toNat = x.toNat * 2 ^ sh ∧ (x <<< sh).toNat < 2 ^ (m + sh) := by
  have hlt : x.toNat * 2 ^ sh < 2 ^ (m + sh) := by
    rw [Nat.pow_add]
    exact Nat.mul_lt_mul_of_pos_right hx (Nat.two_pow_pos sh)
  have hval : (x <<< sh).toNat = x.toNat * 2 ^ sh := by
    rw [BitVec.toNat_shiftLeft, Nat.shiftLeft_eq,
      Nat.mod_eq_of_lt (hlt.trans_le (Nat.pow_le_pow_right (by decide) h))]
  exact ⟨hval, hval ▸ hlt⟩

-- ---------------------------------------------------------------- the round trip

/-- The tables T and P are inverse: the symbols of a tail of `r` bytes decode to `r` bytes, and the
zero bits are dropped (R82, R106). -/
theorem decTail_encTail (r : Fin 5) :
    decTail (Fin.ofNat 8 (encTail r).ns) = some { drop := (encTail r).sh, nb := r.val } := by
  revert r; decide

/-- A tail of `r` bytes and its zero bits are whole symbols, which decode to `r` bytes (R82, R106). -/
theorem messageTail_of_short {ds : List Byte} (h : ds.length ≤ 4) :
    8 * ds.length + (messageTail ds).sh = 5 * (messageTail ds).ns ∧ (messageTail ds).ns < 8 ∧
    decTail (Fin.ofNat 8 (messageTail ds).ns) = some { drop := (messageTail ds).sh, nb := ds.length } := by
  obtain ⟨hns, -, hbits⟩ := encTail_counts (Fin.ofNat 5 ds.length)
  have hrow := decTail_encTail (Fin.ofNat 5 ds.length)
  have hr : (Fin.ofNat 5 ds.length).val = ds.length := Nat.mod_eq_of_lt (by omega)
  rw [hr] at hns hbits hrow
  exact ⟨hbits, by rw [messageTail, hns]; omega, hrow⟩

/-- A tail with its zero bits appended is that many symbols, and dropping them gives its bytes (R82,
R106). -/
theorem shiftedTail_decodes {ds : List Byte} (h : ds.length ≤ 4) :
    packSyms (messageSyms ds) = packBytes ds <<< (messageTail ds).sh ∧
    tailBytes (Fin.ofNat 8 (messageTail ds).ns) (packBytes ds <<< (messageTail ds).sh) = some ds := by
  obtain ⟨hbits, hns, hrow⟩ := messageTail_of_short h
  obtain ⟨hval, hlt⟩ := toNat_shiftLeft_of_lt (packBytes_toNat_lt ds) (sh := (messageTail ds).sh) (by omega)
  have hdropped : packBytes ds <<< (messageTail ds).sh >>> (messageTail ds).sh = packBytes ds := by
    apply BitVec.eq_of_toNat_eq
    rw [BitVec.toNat_ushiftRight, hval, Nat.shiftRight_eq_div_pow, Nat.mul_div_cancel _ (Nat.two_pow_pos _)]
  refine ⟨?_, ?_⟩
  · rw [messageSyms_tail h]
    exact packSyms_symbolsOf (hbits ▸ hlt)
  · have hbytes := bytesOf_packBytes (h.trans (by decide : 4 ≤ 5))
    simp only [tailBytes, hrow, hdropped, hbytes]

/-- A scan at the start of a group gives a tail's bytes back (R82, R106). -/
theorem tailPolicy_scan_tail {ds : List Byte} (h : ds.length ≤ 4) {a : Scan} (ha : a.inCount % 8 = 0)
    (hw : a.w = 0) : tailPolicy ((messageSyms ds).foldl scanSymbol a) = .valid (a.out ++ ds) := by
  obtain ⟨-, hns, -⟩ := messageTail_of_short h
  obtain ⟨hpacked, htail⟩ := shiftedTail_decodes h
  have hlen : (messageSyms ds).length = (messageTail ds).ns := by rw [messageSyms_tail h, symbolsOf_length]
  have hcnt : Fin.ofNat 8 (a.inCount + (messageTail ds).ns) = Fin.ofNat 8 (messageTail ds).ns :=
    Fin.ext (show (a.inCount + (messageTail ds).ns) % 8 = (messageTail ds).ns % 8 by omega)
  rw [packSyms, ← hw] at hpacked
  rw [foldl_scanSymbol_short (by omega), hlen, hpacked, ← messageResult_scanDec, messageResult, Scan.dec, hcnt,
    htail]
  rfl

/-- A scan at the start of a group gives an encoded message's bytes back, group by group and then the
tail. -/
theorem tailPolicy_scan_messageSyms (b : List Byte) {a : Scan} (ha : a.inCount % 8 = 0) (hw : a.w = 0) :
    tailPolicy ((messageSyms b).foldl scanSymbol a) = .valid (a.out ++ b) := by
  induction b using byteGroups_induction generalizing a with
  | tail ds hds => exact tailPolicy_scan_tail hds ha hw
  | group d0 d1 d2 d3 d4 rest ih =>
    have hbits : (symbolsOf 8 (packBytes [d0, d1, d2, d3, d4])).foldl pushSym a.w =
        packBytes [d0, d1, d2, d3, d4] := by
      rw [hw]
      exact packSyms_symbolsOf (packBytes [d0, d1, d2, d3, d4]).isLt
    have hbytes : bytesOf 5 (packBytes [d0, d1, d2, d3, d4]) = [d0, d1, d2, d3, d4] :=
      bytesOf_packBytes (ds := [d0, d1, d2, d3, d4]) (Nat.le_refl 5)
    rw [messageSyms, List.foldl_append, foldl_scanSymbol_group ha (symbolsOf_length 8 _), hbits, hbytes]
    refine (ih ?_ rfl).trans ?_
    · exact (Nat.add_mod_right a.inCount 8).trans ha
    · simp

/-- `Decode(Encode(b))` is `b` (R92). -/
theorem refDecode_refEncode (b : List Byte) :
    refDecode ((refEncode b).map (BitVec.setWidth 16)) = .valid b := by
  rw [refDecode_map_refEncode]
  exact tailPolicy_scan_messageSyms b rfl rfl

/-- The symbols that the decoder counts in an encoded message are those the encoder made. -/
theorem symbolCount_map_refEncode (b : List Byte) :
    symbolCount ((refEncode b).map (BitVec.setWidth 16)) = (8 * b.length + 4) / 5 := by
  have hpad : classify 0x3D#16 = .pad := by decide
  have hvalues : alphaValues ((refEncode b).map (BitVec.setWidth 16)) = messageSyms b := by
    simp [map_setWidth_refEncode, alphaValues, List.filterMap_map, hpad]
  rw [symbolCount, hvalues, messageSyms_length]

/-- Settles O38: the commands give what the reference functions give, and an encoded message has as
many full groups of symbols as its bytes have of five. -/
theorem roundTrip : Obligations.RoundTrip := by
  intro b
  refine ⟨refDecode_refEncode b, fun s henc hdec hcap => ?_⟩
  have hgroups : symbolCount ((refEncode b).map (BitVec.setWidth 16)) / 8 = b.length / 5 := by
    rw [symbolCount_map_refEncode]
    omega
  refine ⟨_, _, refEncode b, runCommands_encMsg b henc, rfl, runCommands_decStr hdec ?_, ?_⟩
  · exact enoughCapacityNeverOverflows _ _ hdec (hgroups ▸ hcap)
  · rw [refDecode_refEncode]
    rfl

-- ---------------------------------------------------------------- messages without data

/-- The strip characters by their codes (R100). -/
theorem isStrip_of_mem {c : CharCode} (h : c.toNat ∈ [9, 10, 13, 32, 61]) : isStrip c = true := by
  have hclass : c.toNat = 9 ∨ c.toNat = 10 ∨ c.toNat = 13 ∨ c.toNat = 32 ∨ c.toNat = 61 := by simpa using h
  obtain hc | hc | hc | hc | hc := hclass <;> simp [isStrip, classify, hc]

theorem symbolCount_of_strip {t : List CharCode} (h : ∀ c ∈ t, isStrip c = true) : symbolCount t = 0 := by
  rw [symbolCount, List.length_eq_zero_iff, alphaValues, List.filterMap_eq_nil_iff]
  intro c hc
  obtain hclass | hclass := (isStrip_iff c).mp (h c hc)
  · rw [hclass]
  · rw [hclass]

theorem fits_zero (cap : Capacity) : fits cap 0 = true := by cases cap <;> simp [fits]

/-- Settles O43: a text of strip characters alone has no effective text and no symbol. -/
theorem emptyMessages : Obligations.EmptyMessages := by
  refine ⟨rfl, fun s hs => runCommands_encMsg [] hs, fun t ht => ?_⟩
  have hstrip : ∀ c ∈ t, isStrip c = true := fun c hc => isStrip_of_mem (ht c hc)
  have hlen : effectiveLength t = 0 := by
    rw [effectiveLength, List.dropWhile_eq_nil_iff.mpr (by simpa using hstrip), List.length_nil]
  have hcount : symbolCount t = 0 := symbolCount_of_strip hstrip
  have hresult : refDecode t = .valid [] := by
    rw [refDecode, hlen]
    rfl
  refine ⟨hlen, hcount, hresult, fun s hs => ?_⟩
  rw [runCommands_decStr hs, hresult]
  · rfl
  · refine enoughCapacityNeverOverflows t s hs ((fits_iff _ _).mp ?_)
    rw [hcount]
    exact fits_zero s.decCap

end Sys2Proof.Machine
end

section
/-!
The decoder's commands. The classes of R100 by their codes, the two commands by the rules' own
arithmetic in every state, and whole messages from every state: the result of the forward scan is
delivered, and nothing before the message's end.
-/

namespace Sys2Proof.Machine

-- ---------------------------------------------------------------- DEC_STR

/-- Settles O36: the decoder holds the values of the reference's forward scan. -/
theorem streamingDecodeIsTheReference : Obligations.StreamingDecodeIsTheReference := by
  intro t s hs hover
  rw [runCommands_decStr hs hover]
  cases refDecode t <;> rfl

-- ---------------------------------------------------------------- the classes of characters

theorem classify_letter {c : CharCode} (h : 65 ≤ c.toNat ∧ c.toNat ≤ 90) :
    classify c = .alpha (BitVec.ofNat 5 (c.toNat - 65)) :=
  if_pos h

theorem classify_digit {c : CharCode} (h : 50 ≤ c.toNat ∧ c.toNat ≤ 55) :
    classify c = .alpha (BitVec.ofNat 5 (c.toNat - 24)) := by
  rw [classify, if_neg (by omega), if_pos h]

/-- A code of no alphabet row is of class WS, PAD or OTHER (R100). -/
theorem classify_of_not_alpha {c : CharCode} (hletter : ¬ (65 ≤ c.toNat ∧ c.toNat ≤ 90))
    (hdigit : ¬ (50 ≤ c.toNat ∧ c.toNat ≤ 55)) :
    classify c =
      if c.toNat = 9 ∨ c.toNat = 10 ∨ c.toNat = 13 ∨ c.toNat = 32 then .ws
      else if c.toNat = 61 then .pad
      else .other := by
  rw [classify, if_neg hletter, if_neg hdigit]

/-- Settles O25: the rows of R100 exclude each other, so each row's codes are its class's. -/
theorem classesOfCharacterCodes : Obligations.ClassesOfCharacterCodes := by
  intro c
  refine ⟨classify_letter, classify_digit, ?_⟩
  by_cases hletter : 65 ≤ c.toNat ∧ c.toNat ≤ 90
  · simp only [classify_letter hletter, List.mem_cons, List.not_mem_nil, or_false, reduceCtorEq, false_iff]
    omega
  by_cases hdigit : 50 ≤ c.toNat ∧ c.toNat ≤ 55
  · simp only [classify_digit hdigit, List.mem_cons, List.not_mem_nil, or_false, reduceCtorEq, false_iff]
    omega
  rw [classify_of_not_alpha hletter hdigit]
  simp only [List.mem_cons, List.not_mem_nil, or_false]
  split_ifs with hws hpad
  · have hpad : c.toNat ≠ 61 := by omega
    simp [hws, hpad]
  · simp [hpad]
  · simp [hws, hpad, hletter, hdigit]

/-- The code of a symbol is in one of the two rows of the alphabet, and gives its value (R101). -/
theorem classify_alpha_cases {c : CharCode} {v : Sym} (h : classify c = .alpha v) :
    (65 ≤ c.toNat ∧ c.toNat ≤ 90 ∧ v.toNat = c.toNat - 65) ∨
    (50 ≤ c.toNat ∧ c.toNat ≤ 55 ∧ v.toNat = c.toNat - 24) := by
  by_cases hletter : 65 ≤ c.toNat ∧ c.toNat ≤ 90
  · obtain rfl := CharClass.alpha.inj (h.symm.trans (classify_letter hletter))
    exact .inl ⟨hletter.1, hletter.2, Nat.mod_eq_of_lt (by omega)⟩
  by_cases hdigit : 50 ≤ c.toNat ∧ c.toNat ≤ 55
  · obtain rfl := CharClass.alpha.inj (h.symm.trans (classify_digit hdigit))
    exact .inr ⟨hdigit.1, hdigit.2, Nat.mod_eq_of_lt (by omega)⟩
  rw [classify_of_not_alpha hletter hdigit] at h
  split_ifs at h

/-- Settles O26: the value of a code is its index in the ROM. -/
theorem valueMapInvertsTheRom : Obligations.ValueMapInvertsTheRom := by
  refine ⟨classify_symCode, fun c v h => ⟨?_, classify_alpha_cases h⟩⟩
  obtain ⟨hupper, hlower⟩ := romContents v
  apply BitVec.eq_of_toNat_eq
  rw [BitVec.toNat_setWidth_of_le (by decide)]
  obtain ⟨hlow, hhigh, hv⟩ | ⟨hlow, hhigh, hv⟩ := classify_alpha_cases h
  · rw [hupper (by omega)]
    omega
  · rw [hlower (by omega)]
    omega

-- ---------------------------------------------------------------- DEC_CHAR in every state

/-- A symbol shifted in, by the rule's arithmetic (R110). -/
theorem pushSym_eq_ofNat (buf : Buf) (v : Sym) :
    pushSym buf v = BitVec.ofNat 40 (buf.toNat * 2 ^ 5 ||| v.toNat) := by
  apply BitVec.eq_of_toNat_eq
  simp [pushSym, Nat.shiftLeft_eq]

theorem exec_decChar_of_err {s : State} (h : s.dec.err = true) (c : CharCode) :
    exec (.decChar c) s = .next s :=
  if_pos h

/-- A symbol of a message without error, and without a `=` so far, is accepted (R110). -/
theorem exec_decChar_of_alpha {s : State} {c : CharCode} {v : Sym} (herr : s.dec.err = false)
    (hpad : s.dec.pad = false) (hc : classify c = .alpha v) :
    exec (.decChar c) s = .next (acceptSymbol v s) := by
  simp [exec, execDecChar, herr, hpad, hc]

theorem acceptSymbol_of_full {s : State} (h : s.dec.cnt.val + 1 = 8) (v : Sym) :
    acceptSymbol v s = finishGroup (pushSym s.dec.buf v) s :=
  if_pos h

theorem finishGroup_of_fits {s : State} (h : fits s.decCap (s.dec.pend.length + 5) = true) (w : Buf) :
    finishGroup w s =
      { s with dec := { s.dec with buf := 0, cnt := 0, pend := s.dec.pend ++ bytesOf 5 w } } :=
  if_pos h

theorem finishGroup_of_not_fits {s : State} {n : Nat} (hcap : s.decCap = .bytes n)
    (h : n < s.dec.pend.length + 5) (w : Buf) :
    finishGroup w s =
      { s with fault := s.fault ||| 2#2, dec := { s.dec with buf := 0, cnt := 0, err := true } } := by
  have hfits : ¬ fits s.decCap (s.dec.pend.length + 5) = true := by simp [hcap, fits, h]
  exact if_neg hfits

/-- Settles O27: DEC_CHAR by the class of its character, an accepted symbol by whether it completes a
group and whether the group fits. -/
theorem decCharResult : Obligations.DecCharResult := by
  intro c s
  refine ⟨fun herr => exec_decChar_of_err herr c, fun herr hc => ?_, fun herr hc => ?_,
    fun herr hc => ?_, fun herr v hc => ?_⟩
  · simp [exec, execDecChar, hc]
  · simp [exec, execDecChar, markPad, herr, hc]
  · simp [exec, execDecChar, markErr, herr, hc]
  · dsimp only
    rw [← pushSym_eq_ofNat]
    refine ⟨fun hpad => ?_, fun hpad hshort => ?_, fun hpad hfull hroom => ?_, fun hpad hfull hover => ?_⟩
    · simp [exec, execDecChar, markErr, herr, hpad, hc]
    · rw [exec_decChar_of_alpha herr hpad hc]
      obtain ⟨hseven, -⟩ | ⟨k, hk, heq⟩ := acceptSymbol_cases v s
      · omega
      · exact ⟨k, hk, congrArg _ heq⟩
    · rw [exec_decChar_of_alpha herr hpad hc, acceptSymbol_of_full hfull,
        finishGroup_of_fits ((fits_iff _ _).mpr hroom)]
      rfl
    · obtain ⟨n, hcap, hn⟩ := hover
      rw [exec_decChar_of_alpha herr hpad hc, acceptSymbol_of_full hfull, finishGroup_of_not_fits hcap hn]

-- ---------------------------------------------------------------- DEC_END in every state

/-- DEC_END delivers the message's result and starts the next message (R111). -/
theorem exec_decEnd (s : State) :
    exec .decEnd s =
      .next { s with dec := Dec.start, decOut := s.decOut ++ resultItems (messageResult s.dec) } :=
  rfl

theorem messageResult_of_err {d : Dec} (h : d.err = true) : messageResult d = .invalid := if_pos h

theorem messageResult_of_tailBytes {d : Dec} {tail : List Byte} (herr : d.err = false)
    (h : tailBytes d.cnt d.buf = some tail) : messageResult d = .valid (d.pend ++ tail) := by
  simp [messageResult, herr, h]

/-- A count without a row of the table P makes the message invalid (R106, R111). -/
theorem messageResult_of_no_row {d : Dec} (h : d.cnt.val ∈ [1, 3, 6]) : messageResult d = .invalid := by
  have hnone : tailBytes d.cnt d.buf = none := by rw [tailBytes, (decTail_eq_none d.cnt).mpr h]
  simp [messageResult, hnone]

/-- The bytes of a buffer from the most significant down, each by its place (R45). -/
theorem bytesOf_eq_map_range (n : Nat) (u : Buf) :
    bytesOf n u = (List.range n).map (fun j => BitVec.ofNat 8 (u.toNat / 2 ^ (8 * (n - 1 - j)))) := by
  induction n with
  | zero => rfl
  | succ n ih =>
    rw [List.range_succ_eq_map, bytesOf, ih]
    simp [BitVec.extractLsb', Nat.shiftRight_eq_div_pow, Nat.sub_add_eq, Nat.sub_right_comm]

/-- The table P of R106, as its rows are written in the statement on DEC_END. -/
theorem decTail_of_row {m : Fin 8} {row : Nat × Nat × Nat}
    (hrow : row ∈ [(0, 0, 0), (2, 2, 1), (4, 4, 2), (5, 1, 3), (7, 3, 4)]) (hm : m.val = row.1) :
    decTail m = some { drop := row.2.1, nb := row.2.2 } := by
  revert m row; decide

/-- Settles O28: an error or a count without a row gives EndInvalid, and a row says which bytes of the
shifted buffer follow the pending ones. -/
theorem decEndResult : Obligations.DecEndResult := by
  intro s
  refine ⟨fun hbad => ?_, fun herr row hrow hm => ?_⟩
  · have hinvalid : messageResult s.dec = .invalid := hbad.elim messageResult_of_err messageResult_of_no_row
    rw [exec_decEnd, hinvalid]
    rfl
  · have htail : tailBytes s.dec.cnt s.dec.buf = some (bytesOf row.2.2 (s.dec.buf >>> row.2.1)) := by
      rw [tailBytes, decTail_of_row hrow hm]
    rw [exec_decEnd, messageResult_of_tailBytes herr htail, bytesOf_eq_map_range]
    simp [resultItems, Dec.start, Nat.shiftRight_eq_div_pow, Function.comp_def]

-- ---------------------------------------------------------------- messages from every state

theorem runCommands_decChars_of_err {s : State} (h : s.dec.err = true) (t : List CharCode) :
    runCommands (t.map .decChar) s = .next s := by
  induction t with
  | nil => rfl
  | cons c t ih => exact (runCommands_cons (exec_decChar_of_err h c) _).trans ih

/-- Settles O32, character by character. -/
theorem malformedMessageIgnoresTheRest : Obligations.MalformedMessageIgnoresTheRest := by
  intro t s herr
  have hchars := runCommands_decChars_of_err herr t
  refine ⟨hchars, ?_⟩
  rw [decStr, runCommands_append hchars, runCommands_singleton, exec_decEnd, messageResult_of_err herr]
  rfl

/-- The characters of a message emit nothing (R110). -/
theorem runCommands_decChars_decOut (t : List CharCode) (s : State) :
    ∃ u, runCommands (t.map .decChar) s = .next u ∧ u.decOut = s.decOut := by
  refine runCommands_map_keeps (P := fun _ u => u.decOut = s.decOut) (fun _ c u v hu hv => ?_) t [] s rfl
  obtain ⟨-, -, -, -, -, hdecOut, -⟩ := decoderCommandsFrame _ u v (.inl ⟨c, rfl⟩) hv
  exact (hdecOut ⟨c, rfl⟩).trans hu

/-- Settles O33: the message's DEC_END alone emits, and a valid result starts with the pending bytes. -/
theorem noPartialResult : Obligations.NoPartialResult := by
  intro t s
  obtain ⟨u, hu, hdecOut⟩ := runCommands_decChars_decOut t s
  refine ⟨u, _, hu, hdecOut, (runCommands_append hu _).trans (runCommands_singleton _ _), ?_⟩
  rw [← hdecOut]
  obtain ⟨hresult, -⟩ | ⟨tail, hresult, -⟩ := messageResult_cases u.dec
  · rw [hresult]
    exact .inl rfl
  · rw [hresult]
    exact .inr ⟨u.dec.pend ++ tail, rfl, List.prefix_append _ _⟩

end Sys2Proof.Machine
end

section
/-!
The laws of Decode. The forward scan of a text rejects it at a `=` or a character of class OTHER, and
else folds the symbol values in order; so the result of Decode is told by whether the effective text
holds a rejected character and by the symbol values of the whole text.
-/

namespace Sys2Proof.Machine

-- ---------------------------------------------------------------- the scan by rejection and symbols

/-- The characters at which the forward scan rejects a text (R104). -/
abbrev Rejects (c : CharCode) : Prop := classify c = .pad ∨ classify c = .other

theorem scanForward_of_rejects {t : List CharCode} (h : ∃ c ∈ t, Rejects c) (a : Scan) :
    scanForward t a = none := by
  induction t generalizing a with
  | nil => simp at h
  | cons c t ih =>
    cases hc : classify c with
    | alpha v => simpa [scanForward, hc] using ih (by simpa [Rejects, hc] using h) _
    | ws => simpa [scanForward, hc] using ih (by simpa [Rejects, hc] using h) a
    | pad => simp [scanForward, hc]
    | other => simp [scanForward, hc]

/-- A text without a rejected character is scanned to its end, its symbol values in order (R103,
R105). -/
theorem scanForward_of_not_rejects {t : List CharCode} (h : ¬ ∃ c ∈ t, Rejects c) (a : Scan) :
    scanForward t a = some ((alphaValues t).foldl scanSymbol a) := by
  induction t generalizing a with
  | nil => rfl
  | cons c t ih =>
    cases hc : classify c with
    | alpha v => simpa [scanForward, alphaValues, hc] using ih (by simpa [Rejects, hc] using h) (scanSymbol a v)
    | ws => simpa [scanForward, alphaValues, hc] using ih (by simpa [Rejects, hc] using h) a
    | pad => simp [Rejects, hc] at h
    | other => simp [Rejects, hc] at h

theorem scanForward_eq_none_iff (t : List CharCode) (a : Scan) :
    scanForward t a = none ↔ ∃ c ∈ t, Rejects c := by
  refine ⟨fun hnone => ?_, fun h => scanForward_of_rejects h a⟩
  by_contra h
  simp [scanForward_of_not_rejects h] at hnone

theorem alphaValues_append (t u : List CharCode) : alphaValues (t ++ u) = alphaValues t ++ alphaValues u :=
  List.filterMap_append

theorem alphaValues_of_strip {t : List CharCode} (h : ∀ c ∈ t, isStrip c = true) : alphaValues t = [] :=
  List.length_eq_zero_iff.mp (symbolCount_of_strip h)

/-- The stripped tail holds no symbol (R102). -/
theorem alphaValues_rdropWhile (t : List CharCode) : alphaValues (t.rdropWhile isStrip) = alphaValues t := by
  have htail : alphaValues (t.rtakeWhile isStrip) = [] :=
    alphaValues_of_strip fun _ => List.mem_rtakeWhile_imp
  rw [← List.append_nil (alphaValues _), ← htail, ← alphaValues_append, List.rdropWhile_append_rtakeWhile]

/-- Decode rejects a text whose effective part holds a rejected character (R104, R107). -/
theorem refDecode_of_rejects {t : List CharCode} (h : ∃ c ∈ t.rdropWhile isStrip, Rejects c) :
    refDecode t = .invalid := by
  rw [refDecode, take_effectiveLength, scanForward_of_rejects h]

/-- Decode of any other text is the tail policy on its symbol values (R105, R107). -/
theorem refDecode_of_not_rejects {t : List CharCode} (h : ¬ ∃ c ∈ t.rdropWhile isStrip, Rejects c) :
    refDecode t = tailPolicy ((alphaValues t).foldl scanSymbol Scan.start) := by
  rw [refDecode, take_effectiveLength, scanForward_of_not_rejects h, alphaValues_rdropWhile]

/-- Two texts that are rejected alike and hold the same symbol values decode alike. -/
theorem refDecode_congr {t u : List CharCode} (hvalues : alphaValues t = alphaValues u)
    (hrejects : (∃ c ∈ t.rdropWhile isStrip, Rejects c) ↔ ∃ c ∈ u.rdropWhile isStrip, Rejects c) :
    refDecode t = refDecode u := by
  by_cases h : ∃ c ∈ u.rdropWhile isStrip, Rejects c
  · rw [refDecode_of_rejects h, refDecode_of_rejects (hrejects.mpr h)]
  · rw [refDecode_of_not_rejects h, refDecode_of_not_rejects (hrejects.not.mpr h), hvalues]

-- ---------------------------------------------------------------- the pad flag and the strip

/-- A stripped character leaves `dec.err` as it is (R114). -/
theorem exec_decChar_err_of_strip {c : CharCode} {s u : State} (hc : isStrip c = true)
    (hu : exec (.decChar c) s = .next u) : u.dec.err = s.dec.err := by
  obtain ⟨hexec, -⟩ | ⟨hexec, -⟩ | ⟨-, -, hclass⟩ | ⟨v, -, -, -, hclass⟩ := execDecChar_cases c s
  · obtain rfl := next_unique hu hexec
    rfl
  · obtain rfl := next_unique hu hexec
    rfl
  · obtain hclass | ⟨-, v, hclass⟩ := hclass <;> simp [isStrip, hclass] at hc
  · simp [isStrip, hclass] at hc

theorem runCommands_strip_err {t : List CharCode} (ht : ∀ c ∈ t, isStrip c = true) (s : State) :
    ∃ u, runCommands (t.map .decChar) s = .next u ∧ u.dec.err = s.dec.err := by
  induction t generalizing s with
  | nil => exact ⟨s, rfl, rfl⟩
  | cons c t ih =>
    obtain ⟨hc, hrest⟩ := List.forall_mem_cons.mp ht
    obtain ⟨v, hv⟩ := exec_answers (.decChar c) s
    obtain ⟨u, hu, herr⟩ := ih hrest v
    exact ⟨u, (runCommands_cons hv _).trans hu, herr.trans (exec_decChar_err_of_strip hc hv)⟩

/-- A position before the effective length is one of the effective text (R102). -/
theorem exists_rejects_position_iff (t : List CharCode) :
    (∃ (i : Nat) (c : CharCode), i < effectiveLength t ∧ t[i]? = some c ∧ Rejects c) ↔
    ∃ c ∈ t.rdropWhile isStrip, Rejects c := by
  simp only [← take_effectiveLength, List.mem_iff_getElem?, List.getElem?_take,
    Option.ite_none_right_eq_some]
  constructor
  · rintro ⟨i, c, hi, hc, hrej⟩
    exact ⟨c, ⟨i, hi, hc⟩, hrej⟩
  · rintro ⟨c, ⟨i, hi, hc⟩, hrej⟩
    exact ⟨i, c, hi, hc, hrej⟩

/-- Settles O35: the unit is marked within the effective text as the forward scan rejects, and the
stripped tail marks nothing. -/
theorem padFlagRealisesTheTrailingStrip : Obligations.PadFlagRealisesTheTrailingStrip := by
  intro t s hs hover
  have hparts : t.map Instr.decChar =
      (t.rdropWhile isStrip).map .decChar ++ (t.rtakeWhile isStrip).map .decChar := by
    rw [← List.map_append, List.rdropWhile_append_rtakeWhile]
  rw [hparts] at hover ⊢
  have hstart : s.dec = Scan.start.dec := hs
  obtain ⟨d, hbody, hscan⟩ := decRuns_scanForward hstart (List.rdropWhile_last_not isStrip t)
    (runOverflows_left hover)
  obtain ⟨u, htail, herr⟩ := runCommands_strip_err (t := t.rtakeWhile isStrip)
    (fun _ => List.mem_rtakeWhile_imp) { s with dec := d }
  refine ⟨u, (runCommands_append hbody _).trans htail, ?_⟩
  rw [exists_rejects_position_iff, ← scanForward_eq_none_iff _ Scan.start, herr]
  cases hresult : scanForward (t.rdropWhile isStrip) Scan.start with
  | none =>
    rw [hresult] at hscan
    exact iff_of_true hscan rfl
  | some a =>
    rw [hresult] at hscan
    simp [show d = a.dec from hscan, Scan.dec]

-- ---------------------------------------------------------------- counts of the scan

theorem scanSymbol_inCount (a : Scan) (v : Sym) : (scanSymbol a v).inCount = a.inCount + 1 := by
  unfold scanSymbol
  split <;> rfl

/-- Each full group gives five bytes (R105). -/
theorem scanSymbol_out_length {a : Scan} (h : a.out.length = 5 * (a.inCount / 8)) (v : Sym) :
    (scanSymbol a v).out.length = 5 * ((scanSymbol a v).inCount / 8) := by
  unfold scanSymbol
  split
  · simp only [List.length_append, List.length_cons, List.length_nil]
    omega
  · dsimp only
    omega

theorem foldl_scanSymbol_counts (vs : List Sym) {a : Scan} (h : a.out.length = 5 * (a.inCount / 8)) :
    (vs.foldl scanSymbol a).inCount = a.inCount + vs.length ∧
    (vs.foldl scanSymbol a).out.length = 5 * ((a.inCount + vs.length) / 8) := by
  induction vs generalizing a with
  | nil => exact ⟨rfl, h⟩
  | cons v vs ih =>
    have hstep := ih (scanSymbol_out_length h v)
    rw [scanSymbol_inCount] at hstep
    simpa [Nat.add_assoc, Nat.add_comm 1] using hstep

/-- After a text's symbol values the scan has counted them, with five bytes for each full group. -/
theorem scan_text_counts (t : List CharCode) :
    ((alphaValues t).foldl scanSymbol Scan.start).inCount = symbolCount t ∧
    ((alphaValues t).foldl scanSymbol Scan.start).out.length = 5 * (symbolCount t / 8) := by
  simpa [symbolCount] using foldl_scanSymbol_counts (alphaValues t) (a := Scan.start) rfl

/-- The counts without a row of the table P are invalid (R106). -/
theorem tailPolicy_of_no_row {a : Scan} (h : a.inCount % 8 ∈ [1, 3, 6]) : tailPolicy a = .invalid := by
  rw [← messageResult_scanDec]
  exact messageResult_of_no_row h

/-- A row of the table P takes the whole bytes of the partial group (R106). -/
theorem decTail_nb {m : Fin 8} {p : DecTail} (h : decTail m = some p) : p.nb = m.val * 5 / 8 := by
  have hrow : ∀ m : Fin 8, (decTail m).all (fun p => p.nb == m.val * 5 / 8) = true := by decide
  simpa [h] using hrow m

theorem tailPolicy_valid_length {a : Scan} {bytes : List Byte} (h : tailPolicy a = .valid bytes) :
    bytes.length = a.out.length + a.inCount % 8 * 5 / 8 := by
  rw [← messageResult_scanDec] at h
  obtain ⟨hinvalid, -⟩ | ⟨tail, hvalid, -, htail⟩ := messageResult_cases a.dec
  · simp [hinvalid] at h
  · obtain rfl := DecodeResult.valid.inj (h.symm.trans hvalid)
    unfold tailBytes at htail
    split at htail
    · cases htail
    · next p hp =>
      cases htail
      rw [List.length_append, bytesOf_length, decTail_nb hp]
      rfl

/-- Settles O42: full groups give five bytes and the tail its whole bytes, and every symbol stands in
the effective text. -/
theorem decodeLengthLaw : Obligations.DecodeLengthLaw := by
  intro t bytes hvalid
  have hlength : bytes.length = symbolCount t * 5 / 8 := by
    by_cases h : ∃ c ∈ t.rdropWhile isStrip, Rejects c
    · simp [refDecode_of_rejects h] at hvalid
    · rw [refDecode_of_not_rejects h] at hvalid
      obtain ⟨hcount, hout⟩ := scan_text_counts t
      have hbytes := tailPolicy_valid_length hvalid
      rw [hcount, hout] at hbytes
      omega
  have hsymbols : symbolCount t ≤ effectiveLength t := by
    rw [symbolCount, ← alphaValues_rdropWhile, ← take_effectiveLength]
    exact (List.length_filterMap_le _ _).trans (List.length_take_le _ _)
  exact ⟨hlength, by omega⟩

-- ---------------------------------------------------------------- the effective text of a concatenation

/-- The strip stops within the second part of a text, or takes all of it and goes on. -/
theorem rdropWhile_append {α : Type} (p : α → Bool) (l r : List α) :
    (l ++ r).rdropWhile p = if r.rdropWhile p = [] then l.rdropWhile p else l ++ r.rdropWhile p := by
  simp only [List.rdropWhile, List.reverse_append, List.dropWhile_append, List.reverse_eq_nil_iff,
    List.isEmpty_iff]
  split <;> simp

/-- The strip stops at the latest at a character that is not stripped. -/
theorem mem_rdropWhile_of_not {α : Type} {p : α → Bool} {l r : List α} {x y : α} (hx : p x = false)
    (hy : y ∈ l ++ [x]) : y ∈ (l ++ x :: r).rdropWhile p := by
  have hstop : (l ++ [x]).rdropWhile p = l ++ [x] := List.rdropWhile_concat_neg p l x (by simp [hx])
  rw [List.append_cons, rdropWhile_append]
  split
  · rwa [hstop]
  · exact List.mem_append_left _ hy

theorem isStrip_of_alpha {c : CharCode} {v : Sym} (h : classify c = .alpha v) : isStrip c = false := by
  simp [isStrip, h]

theorem isStrip_of_other {c : CharCode} (h : classify c = .other) : isStrip c = false := by
  simp [isStrip, h]

-- ---------------------------------------------------------------- the laws of Decode

/-- A character of class OTHER anywhere rejects the text (R104). -/
theorem refDecode_of_other {t : List CharCode} {c : CharCode} (hmem : c ∈ t) (hc : classify c = .other) :
    refDecode t = .invalid := by
  obtain ⟨l, r, rfl⟩ := List.append_of_mem hmem
  exact refDecode_of_rejects ⟨c, mem_rdropWhile_of_not (isStrip_of_other hc) (by simp), .inr hc⟩

/-- Settles O39: the printed codes of the first law are of class OTHER, the counts of the second have no
row, and the `=` of the third is not stripped. -/
theorem decodeRejectionLaws : Obligations.DecodeRejectionLaws := by
  refine ⟨fun t c hmem hc => refDecode_of_other hmem ?_, fun t hcount => ?_,
    fun a b d p c hp ⟨v, hc⟩ => ?_⟩
  · obtain ⟨-, -, -, -, hother⟩ := classesOfCharacterCodes c
    rw [hother] at hc ⊢
    simp only [List.mem_cons, List.not_mem_nil, or_false] at hc ⊢
    omega
  · by_cases h : ∃ c ∈ t.rdropWhile isStrip, Rejects c
    · exact refDecode_of_rejects h
    · obtain ⟨hsymbols, -⟩ := scan_text_counts t
      rw [refDecode_of_not_rejects h]
      exact tailPolicy_of_no_row (hsymbols ▸ hcount)
  · refine refDecode_of_rejects ⟨p, ?_, .inl hp⟩
    exact mem_rdropWhile_of_not (isStrip_of_alpha hc) (by simp)

/-- Settles O40: a whitespace character is no symbol and no rejected character, and is stripped where
nothing but stripped characters follows. -/
theorem whitespaceIsSkippedAnywhere : Obligations.WhitespaceIsSkippedAnywhere := by
  intro a b c hc
  have hvalues : alphaValues (c :: b) = alphaValues b := by simp [alphaValues, hc]
  refine refDecode_congr (by rw [alphaValues_append, alphaValues_append, hvalues]) ?_
  have hstrip : [c].rdropWhile isStrip = [] := by simp [isStrip, hc]
  rw [← List.singleton_append, rdropWhile_append, rdropWhile_append _ a, rdropWhile_append _ [c]]
  by_cases hb : b.rdropWhile isStrip = []
  · simp [hb, hstrip]
  · simp [hb, Rejects, hc, or_and_right, exists_or]

/-- Settles O41: the appended `=` are stripped. -/
theorem trailingPaddingIsNotChecked : Obligations.TrailingPaddingIsNotChecked := by
  intro t n
  have hpad : ∀ c ∈ List.replicate n (61 : CharCode), isStrip c = true := fun c hc =>
    List.eq_of_mem_replicate hc ▸ by decide
  refine refDecode_congr ?_ (by rw [rdropWhile_append_of_pos hpad])
  rw [alphaValues_append, alphaValues_of_strip hpad, List.append_nil]

-- ---------------------------------------------------------------- the dropped bits

/-- The number of dropped bits, as its rows are written in the statement on them (R106). -/
theorem decTail_drop_of_row {m : Fin 8} {row : Nat × Nat} (hrow : row ∈ [(2, 2), (4, 4), (5, 1), (7, 3)])
    (hm : m.val = row.1) : (decTail m).map DecTail.drop = some row.2 := by
  revert m row; decide

/-- A tail's bytes are told by the bits that are not dropped (R108). -/
theorem tailBytes_congr {m : Fin 8} {drop : Nat} {x y : Buf} (hm : (decTail m).map DecTail.drop = some drop)
    (h : x.toNat / 2 ^ drop = y.toNat / 2 ^ drop) : tailBytes m x = tailBytes m y := by
  obtain ⟨p, hp, rfl⟩ := Option.map_eq_some_iff.mp hm
  have hshift : x >>> p.drop = y >>> p.drop :=
    BitVec.eq_of_toNat_eq (by simpa [Nat.shiftRight_eq_div_pow] using h)
  simp only [tailBytes, hp, hshift]

/-- Settles O44: DEC_END reads `dec.buf` for the tail's bytes alone. -/
theorem droppedBitsAreNotChecked : Obligations.DroppedBitsAreNotChecked := by
  refine ⟨fun s buf row hrow hm hbuf => ?_, by decide, by decide⟩
  have htail := tailBytes_congr (decTail_drop_of_row hrow hm) hbuf
  have hresult : messageResult { s.dec with buf := buf } = messageResult s.dec := by
    simp only [messageResult, htail]
  rw [exec_decEnd, exec_decEnd, hresult]

end Sys2Proof.Machine
end

section
/-!
The two command faults (R133 to R137): a word of no row raises ILLEGAL, a DEC_CHAR raises OVERFLOW
exactly where `overflowsAt` says so, and nothing else raises a fault.
-/

namespace Sys2Proof.Machine

open Sys2Proof.Safety

/-- Settles O7: a word of no row is not legal, so the port raises ILLEGAL and no unit sees it. -/
theorem illegalWordSetsIllegalOnly : Obligations.IllegalWordSetsIllegalOnly := by
  intro s w hw
  obtain ⟨i, hlegal, -⟩ | ⟨_, -, hraise⟩ := acceptWord_cases w s
  · have hrow : wordWellFormed w = true := (legal_iff_wordWellFormed w).mp ⟨i, hlegal⟩
    exact absurd hrow (by simp [hw])
  · exact hraise

-- ---------------------------------------------------------------- OVERFLOW

theorem overflowsAt_of_full {c : CharCode} {v : Sym} {s : State} (hc : classify c = .alpha v)
    (herr : s.dec.err = false) (hpad : s.dec.pad = false) (hcnt : s.dec.cnt.val = 7)
    (hfits : fits s.decCap (s.dec.pend.length + 5) = false) : overflowsAt (.decChar c) s = true := by
  simp [overflowsAt, hc, herr, hpad, hcnt, hfits]

/-- DEC_CHAR is the only command that can overflow (R135, R137). -/
theorem exists_decChar_of_overflowsAt {i : Instr} {s : State} (h : overflowsAt i s = true) :
    ∃ c, i = .decChar c := by
  cases i with
  | encByte d => cases h
  | encEnd => cases h
  | decChar c => exact ⟨c, rfl⟩
  | decEnd => cases h

/-- With the capacity unbounded every group fits (R135). -/
theorem overflowsAt_unbounded (i : Instr) {s : State} (hcap : s.decCap = .unbounded) :
    overflowsAt i s = false := by
  refine Bool.eq_false_iff.mpr fun hover => ?_
  obtain ⟨c, rfl⟩ := exists_decChar_of_overflowsAt hover
  obtain ⟨_, -, -, -, -, hfull⟩ := overflowsAt_decChar hover
  simp [hcap, fits] at hfull

/-- What an overflow writes: the bit of `fault`, and the group's end with its bytes dropped and
`dec.err` set (R135). -/
theorem exec_decChar_of_overflowsAt {c : CharCode} {s : State} (h : overflowsAt (.decChar c) s = true) :
    exec (.decChar c) s =
      .next { s with fault := s.fault ||| 2#2, dec := { s.dec with buf := 0, cnt := 0, err := true } } := by
  obtain ⟨v, hc, herr, hpad, hcnt, hfits⟩ := overflowsAt_decChar h
  rw [exec_decChar_of_alpha herr hpad hc, acceptSymbol_of_full (by omega)]
  obtain ⟨hroom, -⟩ | ⟨-, hdrop⟩ := finishGroup_cases (pushSym s.dec.buf v) s
  · simp [hroom] at hfits
  · rw [hdrop]

/-- A symbol that completes no group, or one that fits, leaves `fault` (R110). -/
theorem acceptSymbol_fault {s : State} (v : Sym)
    (h : s.dec.cnt.val = 7 → fits s.decCap (s.dec.pend.length + 5) = true) :
    (acceptSymbol v s).fault = s.fault := by
  obtain ⟨hcnt, hgroup⟩ | ⟨_, -, hheld⟩ := acceptSymbol_cases v s
  · rw [hgroup, finishGroup_of_fits (h hcnt)]
  · rw [hheld]

/-- A DEC_CHAR that does not overflow leaves `fault` (R110, R137). -/
theorem exec_decChar_fault_of_not_overflowsAt {c : CharCode} {s t : State}
    (h : overflowsAt (.decChar c) s = false) (ht : exec (.decChar c) s = .next t) :
    t.fault = s.fault := by
  obtain ⟨hx, -⟩ | ⟨hx, -⟩ | ⟨hx, -⟩ | ⟨v, hx, herr, hpad, hc⟩ := execDecChar_cases c s
  · rw [next_unique ht hx]
  · rw [next_unique ht hx, markPad_fault]
  · rw [next_unique ht hx, markErr_fault]
  · rw [next_unique ht hx]
    refine acceptSymbol_fault v fun hcnt => ?_
    by_contra hfits
    simp [overflowsAt_of_full hc herr hpad hcnt (by simpa using hfits)] at h

/-- What a command does to `fault`: it raises OVERFLOW where it overflows, and nothing else (R137). -/
theorem exec_fault {i : Instr} {s t : State} (ht : exec i s = .next t) :
    t.fault = if overflowsAt i s then s.fault ||| 2#2 else s.fault := by
  cases hi : i.unit with
  | enc =>
    obtain ⟨-, -, hfault, -⟩ := exec_enc_frame hi ht
    simp [overflowsAt_enc hi, hfault]
  | dec =>
    obtain ⟨c, rfl⟩ | rfl := decCommand_of_unit hi
    · by_cases hover : overflowsAt (.decChar c) s = true
      · rw [next_unique ht (exec_decChar_of_overflowsAt hover), if_pos hover]
      · rw [if_neg hover]
        exact exec_decChar_fault_of_not_overflowsAt (by simpa using hover) ht
    · obtain rfl := next_unique ht (exec_decEnd s)
      rfl

/-- Settles O30: the overflow leaves `dec.err` set, so the rest of the message is ignored. -/
theorem overflowRule : Obligations.OverflowRule := by
  refine ⟨fun c v s n hcap hc herr hpad hcnt hn => ?_, fun i s t hcap ht => ?_⟩
  · have hfits : fits s.decCap (s.dec.pend.length + 5) = false := by simp [hcap, fits, hn]
    refine ⟨_, exec_decChar_of_overflowsAt (overflowsAt_of_full hc herr hpad hcnt hfits), rfl, fun rest => ?_⟩
    obtain ⟨-, hmessage⟩ := malformedMessageIgnoresTheRest rest
      { s with fault := s.fault ||| 2#2, dec := { s.dec with buf := 0, cnt := 0, err := true } } rfl
    exact hmessage
  · simpa [overflowsAt_unbounded i hcap] using exec_fault ht

/-- Settles O48: an illegal word raises ILLEGAL, and a legal word's command raises OVERFLOW where it
overflows, which only a DEC_CHAR does. -/
theorem oneCommandRaisesAtMostOneFault : Obligations.OneCommandRaisesAtMostOneFault := by
  intro s t w rest hin ht
  have haccept : acceptWord w { s with input := rest } = .next t := (step_of_input hin).symm.trans ht
  have hlegal : ∀ i, decode w = .legal i →
      t.fault = if overflowsAt i s then s.fault ||| 2#2 else s.fault := fun i hi => by
    have hover : overflowsAt i { s with input := rest } = overflowsAt i s := overflowsAt_congr i rfl rfl
    rw [exec_fault ((acceptWord_of_legal hi _).symm.trans haccept), hover]
  refine ⟨fun hw => ?_, fun c => hlegal (.decChar c), fun i hi hne => ?_⟩
  · rw [next_unique haccept (illegalWordSetsIllegalOnly _ w hw)]
  · have hover : ¬ overflowsAt i s = true := fun h => by
      obtain ⟨c, hc⟩ := exists_decChar_of_overflowsAt h
      exact hne c hc
    rw [hlegal i hi, if_neg hover]

end Sys2Proof.Machine
end

section
/-!
The host's side of the block (R150 to R156): the handshakes at the output queues, what the output
ports show, and `rst`, which leaves both units at the start of a message.
-/

namespace Sys2Proof.Machine

-- ---------------------------------------------------------------- the handshakes

theorem step_takeEnc {s : State} {rest : List HostEvent} (h : s.input = .takeEnc :: rest) :
    step s = .next { s with encOut := s.encOut.tail, input := rest } := step_of_input h

theorem step_takeDec {s : State} {rest : List HostEvent} (h : s.input = .takeDec :: rest) :
    step s = .next { s with decOut := s.decOut.tail, input := rest } := step_of_input h

/-- Settles O9: a handshake leaves the tail of its queue, which for an empty queue is the queue. -/
theorem hostTakesQueueHeads : Obligations.HostTakesQueueHeads := by
  intro s rest
  refine ⟨fun hin => ⟨fun x q hq => ?_, fun hq => ?_⟩, fun hin => ⟨fun x q hq => ?_, fun hq => ?_⟩⟩
  · rw [step_takeEnc hin, hq, List.tail_cons]
  · rw [step_takeEnc hin, hq, List.tail_nil]
  · rw [step_takeDec hin, hq, List.tail_cons]
  · rw [step_takeDec hin, hq, List.tail_nil]

-- ---------------------------------------------------------------- the output ports

/-- `eo_kind` and `eo_data` of an item of `enc_out` (R154). -/
def encPort : EncItem → BitVec 1 × Byte
  | .chr c  => (0, c)
  | .endMsg => (1, 0)

/-- `do_kind` and `do_data` of an item of `dec_out` (R154). -/
def decPort : DecItem → BitVec 2 × Byte
  | .byte b     => (0, b)
  | .endValid   => (1, 0)
  | .endInvalid => (2, 0)

theorem eoHead_eq (s : State) : eoHead s = s.encOut.head?.map encPort := by
  unfold eoHead
  split <;> (next h => simp [h, encPort])

theorem eoHead_of_cons {s : State} {x : EncItem} {q : List EncItem} (h : s.encOut = x :: q) :
    eoHead s = some (encPort x) := by
  rw [eoHead_eq, h, List.head?_cons, Option.map_some]

theorem doHead_eq (s : State) : doHead s = s.decOut.head?.map decPort := by
  unfold doHead
  split <;> (next h => simp [h, decPort])

theorem doHead_of_cons {s : State} {x : DecItem} {q : List DecItem} (h : s.decOut = x :: q) :
    doHead s = some (decPort x) := by
  rw [doHead_eq, h, List.head?_cons, Option.map_some]

theorem eoValid_iff (s : State) : eoValid s = true ↔ s.encOut ≠ [] := by simp [eoValid]

theorem doValid_iff (s : State) : doValid s = true ↔ s.decOut ≠ [] := by simp [doValid]

theorem decPort_kind_ne_three (x : DecItem) : (decPort x).1 ≠ 3 := by
  cases x <;> simp [decPort]

/-- Settles O10: the ports show the head of each queue by its kind and data. -/
theorem portsShowQueueHeads : Obligations.PortsShowQueueHeads := by
  intro s
  refine ⟨fun c q hq => eoHead_of_cons hq, fun q hq => eoHead_of_cons hq,
    fun b q hq => doHead_of_cons hq, fun q hq => doHead_of_cons hq, fun q hq => doHead_of_cons hq,
    eoValid_iff s, doValid_iff s, fun kd hkd => ?_, rfl⟩
  obtain ⟨x, -, hx⟩ := Option.map_eq_some_iff.mp ((doHead_eq s).symm.trans hkd)
  exact decPort_kind_ne_three x (congrArg Prod.fst hx)

-- ---------------------------------------------------------------- reset

theorem step_rst {s : State} {rest : List HostEvent} (h : s.input = .rst :: rest) :
    step s = .next (resetBlock { s with input := rest }) := step_of_input h

/-- At the start of a message ENC_END closes an empty message (R88). -/
theorem exec_encEnd_of_start {s : State} (hs : s.enc = Enc.start) :
    exec .encEnd s = .next { s with encOut := s.encOut ++ [.endMsg] } := by
  obtain ⟨-, hmessage, -⟩ := emptyMessages
  exact (runCommands_singleton .encEnd s).symm.trans (hmessage s hs)

/-- At the start of a message DEC_END closes an empty message, which is valid (R118). -/
theorem exec_decEnd_of_start {s : State} (hs : s.dec = Dec.start) :
    exec .decEnd s = .next { s with decOut := s.decOut ++ [.endValid] } := by
  obtain ⟨-, -, htexts⟩ := emptyMessages
  obtain ⟨-, -, -, hmessage⟩ := htexts [] (by simp)
  exact (runCommands_singleton .decEnd s).symm.trans (hmessage s hs)

/-- Settles O12: the reset block has both units at the start of a message, so an end command closes
an empty one. -/
theorem resetInputRestoresResetValues : Obligations.ResetInputRestoresResetValues := by
  intro s rest hin
  exact ⟨_, step_rst hin, rfl, rfl, rfl, rfl, rfl, rfl, rfl, rfl, rfl, rfl,
    exec_encEnd_of_start rfl, exec_decEnd_of_start rfl⟩

end Sys2Proof.Machine
end

section
/-!
The idle block: with no action of the host to come a step is no change (assumption log 2).
-/

namespace Sys2Proof.Machine

/-- Settles O8: of the two things a step can do, applying an action needs one to come. -/
theorem idleStepChangesNothing : Obligations.IdleStepChangesNothing := by
  intro s hnone
  obtain ⟨-, hidle⟩ | ⟨e, rest, hsome, -⟩ := step_cases s
  · exact hidle
  · exact absurd (hnone.symm.trans hsome) (List.cons_ne_nil e rest).symm

end Sys2Proof.Machine
end
